-- ==== Sys2Proof/Word.lean ====
section
/-! DEFINITION. The widths of the SKIPJACK core's values (spec/00_scope.md R6, R9; spec/30_encoding.md R61, R65). -/

namespace Sys2Proof

/-- A byte: an unsigned integer in 0..255 (R9). -/
abbrev Byte := BitVec 8

/-- A Word: "16-bit unsigned integer" (R6, R9). -/
abbrev Word := BitVec 16

/-- The 0-based `step` handed to `G` and `GINV`, in 0..31 (R6, R65). -/
abbrev Step := BitVec 5

/-- The number of a stage of `G` or `GINV`, in 0..3 (R66). -/
abbrev Stage := BitVec 2

/-- A command word `cmd[87:0]` (R61). -/
abbrev CmdWord := BitVec 88

/-- The argument `arg[79:0]` of a command word (R61). -/
abbrev Arg := BitVec 80

/-- The value `RDBLK` puts on the output `dout[63:0]` (R63). -/
abbrev Dout := BitVec 64

/-- A round counter: 1..32 in a round, 0 between rounds (spec/10_state.md R23, bounded by 32 as
spec/30_encoding.md R71 asks). -/
abbrev Counter := Fin 33

end Sys2Proof
end

