-- ==== Sys2Proof/Syntax.lean ====
section
/-! DEFINITION. Keys, blocks, the raw words on the core's operand wires, and the fifteen operations
(spec/00_scope.md R4): one constructor of `Instr` per row of spec/opcode_table.json. -/

namespace Sys2Proof

/-- The Key: exactly ten bytes, `KEY[0]` first (spec/10_state.md R21, spec/20_memory.md R52). -/
abbrev Key := Vector Byte 10

/-- The Block: exactly four words, `w0` first (spec/10_state.md R22, spec/00_scope.md R11). -/
structure Block where
  w0 : Word
  w1 : Word
  w2 : Word
  w3 : Word
deriving DecidableEq, Repr

/-- An operand pattern of format P, on the wires of its unit: the four layouts, each of its own width
(spec/30_encoding.md R66). -/
inductive UnitCall where
  /-- `hhhhhhhh llllllll`. -/
  | w2b (x : BitVec 16)
  /-- `hhhhhhhh llllllll`. -/
  | b2w (x : BitVec 16)
  /-- `aaaaaaaa`. -/
  | flookup (x : BitVec 8)
  /-- `sssss ii`. -/
  | keysel (x : BitVec 7)
deriving DecidableEq, Repr

/-- A raw word, on the wires of its format, one constructor per format: C is the only one the host sees, U runs
from the scheduler to the block datapath, G from the block datapath to the G unit, P inside the datapath
(spec/30_encoding.md R60). Only the wires tell the formats apart: the patterns of different formats overlap. -/
inductive RawWord where
  | command (c : CmdWord)
  | roundSelect (r : BitVec 2)
  | gBundle (b : BitVec 22)
  | unitCall (u : UnitCall)
deriving DecidableEq, Repr

/-- The operations of the core (spec/00_scope.md R4). Operand sizes are part of the types, so a key of
nine bytes is not a term (spec/60_exceptions.md R141). -/
inductive Instr where
  /-- `LDKEY k0 .. k9` (spec/44_host_commands.md R126). -/
  | ldkey (k : Key)
  /-- `LDBLK w0 w1 w2 w3` (R127). -/
  | ldblk (b : Block)
  /-- `RDBLK` (R128). -/
  | rdblk
  /-- `ENC` (R129). -/
  | enc
  /-- `DEC` (R130). -/
  | dec
  /-- `STEP_A` (spec/42_stepping_rules.md R100). -/
  | stepA
  /-- `STEP_B` (R102). -/
  | stepB
  /-- `STEP_AINV` (R101). -/
  | stepAinv
  /-- `STEP_BINV` (R103). -/
  | stepBinv
  /-- `G` on the bundle `0, step, hi, lo` (spec/41_g_permutation.md R90, spec/30_encoding.md R65). -/
  | g (step : Step) (hi lo : Byte)
  /-- `GINV` on the bundle `1, step, hi, lo` (R91, R65). -/
  | ginv (step : Step) (hi lo : Byte)
  /-- `W2B` (spec/40_table_and_conversion.md R81). -/
  | w2b (w : Word)
  /-- `B2W` (R82). -/
  | b2w (hi lo : Byte)
  /-- `FLOOKUP` (R80). -/
  | flookup (a : Byte)
  /-- `KEYSEL` (R84). -/
  | keysel (step : Step) (i : Stage)
deriving DecidableEq, Repr

/-- The three groups of operations (spec/00_scope.md R4): six datapath functions, four round micro-operations,
five host commands. -/
inductive OpGroup where
  | datapath
  | micro
  | command
deriving DecidableEq, Repr

/-- The group of an operation (R4). -/
def Instr.group : Instr → OpGroup
  | .ldkey _ => .command
  | .ldblk _ => .command
  | .rdblk => .command
  | .enc => .command
  | .dec => .command
  | .stepA => .micro
  | .stepB => .micro
  | .stepAinv => .micro
  | .stepBinv => .micro
  | .g _ _ _ => .datapath
  | .ginv _ _ _ => .datapath
  | .w2b _ => .datapath
  | .b2w _ _ => .datapath
  | .flookup _ => .datapath
  | .keysel _ _ => .datapath

/-- Why a raw word is no instruction (spec/30_encoding.md R70). -/
inductive DecodeError where
  /-- `op` is outside 0x01..0x05. -/
  | reservedOpcode (op : Byte)
  /-- `op` is defined and a must-be-zero bit of `arg` is set. -/
  | mustBeZero (op : Byte)
deriving DecidableEq, Repr

/-- The pseudo-operations: the source's calls as command sequences (spec/30_encoding.md R74). -/
inductive Pseudo where
  | construct (k : Key)
  | encrypt (b : Block)
  | decrypt (b : Block)
deriving DecidableEq, Repr

/-- The expansion of a pseudo-operation (R74). -/
def Pseudo.expand : Pseudo → List Instr
  | .construct k => [.ldkey k]
  | .encrypt b => [.ldblk b, .enc, .rdblk]
  | .decrypt b => [.ldblk b, .dec, .rdblk]

end Sys2Proof
end

