-- ==== Sys2Proof/Config.lean ====
section
/-! DEFINITION. What is fixed for the core and is not state: the number of rounds and of rounds in a
band (spec/00_scope.md R6; the other sizes of R6 are in the types), the one open parameter, the free value, and the
register contents the model names where the spec gives none. The ROM, the schedule
and the key-index pattern (spec/10_state.md R29) are plain definitions in Sys2Proof/Machine/. -/

namespace Sys2Proof

/-- `ROUNDS` (R6). -/
def Config.rounds : Nat := 32

/-- `BAND_ROUNDS` (R6). -/
def Config.bandRounds : Nat := 8

/-- One less than `CYCLES_PER_ROUND`: free, nothing evaluates it (log 15). -/
opaque Config.cyclesPerRoundLessOne : Nat

/-- `CYCLES_PER_ROUND`, the spec's one open parameter, a positive integer of which nothing in the model
depends (spec/70_reset_and_hazards.md R168, spec/92_eei_decisions.md D15; log 15). -/
def Config.cyclesPerRound : Nat := Config.cyclesPerRoundLessOne + 1

/-- `step` at counter 0, which the spec does not give: `step = CTR - 1` has a value for counters 1..32 alone
(spec/10_state.md R26, spec/43_engine.md R111). A free value: nothing evaluates it (log 22). -/
opaque Config.stepAtZero : Step

/-- What `KEY` is named to hold after reset, where the spec says "no value" (R31). DESIGN CHOICE (log 1,
unsafe): every operation that would read it is refused while `KV = 0`. -/
def Config.resetKey : Key := #v[0, 0, 0, 0, 0, 0, 0, 0, 0, 0]

/-- What `W` is named to hold after reset, where the spec says "no value" (R31). DESIGN CHOICE (log 1,
unsafe): every operation that would read it is refused while `BV = 0`. -/
def Config.resetBlock : Block := ⟨0, 0, 0, 0⟩

end Sys2Proof
end

