-- ==== Sys2Proof/Machine/Operands.lean ====
section
/-! DEFINITION. The operand forms: word/byte conversion (spec/40_table_and_conversion.md R81, R82), the key-byte
selector (R84), the table address (spec/30_encoding.md R67), the step and the counter operand (R69,
spec/43_engine.md R111). -/

namespace Sys2Proof.Machine

/-- `W2B(w)`: `hi = w >> 8`, `lo = w AND 0xFF` (R81). -/
def wordToBytes (w : Word) : Byte × Byte := ((w >>> 8).setWidth 8, (w &&& 0xFF).setWidth 8)

/-- `B2W(hi, lo) = (hi << 8) OR lo`, the shift at 16 bits (R82). -/
def bytesToWord (hi lo : Byte) : Word := (hi.setWidth 16 <<< 8) ||| lo.setWidth 16

/-- `KEYSEL(step, i) = (4*step + i) mod 10`, reduced once, after the addition (R84, R68). -/
def keySel (step : Step) (i : Stage) : Fin 10 :=
  ⟨(4 * step.toNat + i.toNat) % 10, Nat.mod_lt _ (by decide)⟩

/-- `K[KEYSEL(step, i)]` (R84). -/
def keyByte (K : Key) (step : Step) (i : Stage) : Byte := K.get (keySel step i)

/-- A table look-up of stage `i`: the address is the data byte XOR the key byte (R67). -/
def lookup (F : Byte → Byte) (K : Key) (step : Step) (i : Stage) (d : Byte) : Byte :=
  F (d ^^^ keyByte K step i)

/-- `step = counter - 1`, derived here only (R111, spec/10_state.md R26). The spec gives it for counters 1..32; at
counter 0, between rounds, it is a free value. DESIGN CHOICE (log 22). -/
def stepOf (c : Counter) : Step := if c = 0 then Config.stepAtZero else BitVec.ofNat 5 (c.val - 1)

/-- `zext_16(counter)`, the counter as an XOR operand (R69). The spec gives it for counters 1..32; at counter 0 the
same formula is taken. DESIGN CHOICE (log 22). -/
def c16 (c : Counter) : Word := BitVec.ofNat 16 c.val

end Sys2Proof.Machine
end

