-- ==== Sys2Proof/WellFormed.lean ====
section
/-! DEFINITION. Which raw words are well-formed. A term of `Instr` is well-formed by its type
(spec/60_exceptions.md R141), so the checks stand where an ill-formed thing can be written: on the raw
words of spec/30_encoding.md. -/

namespace Sys2Proof

/-- The command words that are not a reserved encoding (R70): `op = cmd[87:80]` is defined, and the
must-be-zero bits of that opcode (`arg[79:64]` of `LDBLK`, all of `arg` of `RDBLK`, `ENC`, `DEC`) are zero. -/
def CmdWord.wellFormed (c : CmdWord) : Bool :=
  let op := c.extractLsb' 80 8
  op == 0x01
    || (op == 0x02 && c.extractLsb' 64 16 == 0)
    || ((op == 0x03 || op == 0x04 || op == 0x05) && c.extractLsb' 0 80 == 0)

/-- The raw words that stand for an instruction: every value of `rsel` (R64), of the G bundle (R65) and of each
operand layout (R66) does. -/
def RawWord.wellFormed : RawWord → Bool
  | .command c => c.wellFormed
  | .roundSelect _ => true
  | .gBundle _ => true
  | .unitCall _ => true

end Sys2Proof
end

