-- ==== Sys2Proof/Decode.lean ====
section
/-! DEFINITION. Decoding and encoding of the four formats of spec/30_encoding.md, each written from its
bit-position table. Decoding is total: a raw word that stands for no instruction is rejected by name. -/

namespace Sys2Proof

/-- `cmd[87:80]` (R61). -/
def CmdWord.op (c : CmdWord) : Byte := c.extractLsb' 80 8

/-- `cmd[79:0]` (R61). -/
def CmdWord.arg (c : CmdWord) : Arg := c.extractLsb' 0 80

/-- The ten key bytes of an `LDKEY` argument: `KEY[i] = arg[79 - 8*i : 72 - 8*i]` (R62). -/
def Key.ofArg (a : Arg) : Key :=
  #v[a.extractLsb' 72 8, a.extractLsb' 64 8, a.extractLsb' 56 8, a.extractLsb' 48 8, a.extractLsb' 40 8,
     a.extractLsb' 32 8, a.extractLsb' 24 8, a.extractLsb' 16 8, a.extractLsb' 8 8, a.extractLsb' 0 8]

/-- The argument that carries a key, `KEY[0]` in the top byte (R62, spec/20_memory.md R42). -/
def Key.toArg (k : Key) : Arg :=
  k[0] ++ k[1] ++ k[2] ++ k[3] ++ k[4] ++ k[5] ++ k[6] ++ k[7] ++ k[8] ++ k[9]

/-- The four words of a 64-bit block: `W[i] = arg[63 - 16*i : 48 - 16*i]` (R63). -/
def Block.ofDout (d : Dout) : Block :=
  ⟨d.extractLsb' 48 16, d.extractLsb' 32 16, d.extractLsb' 16 16, d.extractLsb' 0 16⟩

/-- The 64 bits that carry a block, `W[0]` in the top word: the argument of `LDBLK` and what `RDBLK`
puts on `dout` (R63, spec/20_memory.md R42). -/
def Block.toDout (b : Block) : Dout := b.w0 ++ b.w1 ++ b.w2 ++ b.w3

/-- Format C: `op` decides, then the must-be-zero bits are checked (R61 to R63, R70, R72). -/
def decodeCommand (c : CmdWord) : Except DecodeError Instr :=
  if c.op = 0x01 then .ok (.ldkey (Key.ofArg c.arg))
  else if c.op = 0x02 then
    if c.arg.extractLsb' 64 16 = 0 then .ok (.ldblk (Block.ofDout (c.arg.extractLsb' 0 64)))
    else .error (.mustBeZero c.op)
  else if c.op = 0x03 then if c.arg = 0 then .ok .rdblk else .error (.mustBeZero c.op)
  else if c.op = 0x04 then if c.arg = 0 then .ok .enc else .error (.mustBeZero c.op)
  else if c.op = 0x05 then if c.arg = 0 then .ok .dec else .error (.mustBeZero c.op)
  else .error (.reservedOpcode c.op)

/-- Format U: `rsel = (dec, bsel)` (R64). -/
def decodeRoundSelect (r : BitVec 2) : Instr :=
  if r = 0b00 then .stepA
  else if r = 0b01 then .stepB
  else if r = 0b10 then .stepAinv
  else .stepBinv

/-- Format G: `inv`, `step`, high byte, low byte (R65). -/
def decodeGBundle (b : BitVec 22) : Instr :=
  let step : Step := b.extractLsb' 16 5
  let hi : Byte := b.extractLsb' 8 8
  let lo : Byte := b.extractLsb' 0 8
  if b.extractLsb' 21 1 = 0 then .g step hi lo else .ginv step hi lo

/-- Format P: which operation is meant is told by the unit, not by the bits (R66). -/
def decodeUnitCall : UnitCall → Instr
  | .w2b x => .w2b x
  | .b2w x => .b2w (x.extractLsb' 8 8) (x.extractLsb' 0 8)
  | .flookup x => .flookup x
  | .keysel x => .keysel (x.extractLsb' 2 5) (x.extractLsb' 0 2)

/-- The instruction a raw word stands for. -/
def decode : RawWord → Except DecodeError Instr
  | .command c => decodeCommand c
  | .roundSelect r => .ok (decodeRoundSelect r)
  | .gBundle b => .ok (decodeGBundle b)
  | .unitCall u => .ok (decodeUnitCall u)

/-- The command word `op`, `arg` (R61). -/
def CmdWord.mk (op : Byte) (arg : Arg) : CmdWord := op ++ arg

/-- The bundle `inv`, `step`, high byte, low byte (R65). -/
def gBundle (inv : BitVec 1) (step : Step) (hi lo : Byte) : BitVec 22 := inv ++ step ++ hi ++ lo

/-- The raw word of an instruction, by the same tables. -/
def encode : Instr → RawWord
  | .ldkey k => .command (CmdWord.mk 0x01 (Key.toArg k))
  | .ldblk b => .command (CmdWord.mk 0x02 ((0 : BitVec 16) ++ b.toDout))
  | .rdblk => .command (CmdWord.mk 0x03 0)
  | .enc => .command (CmdWord.mk 0x04 0)
  | .dec => .command (CmdWord.mk 0x05 0)
  | .stepA => .roundSelect 0b00
  | .stepB => .roundSelect 0b01
  | .stepAinv => .roundSelect 0b10
  | .stepBinv => .roundSelect 0b11
  | .g step hi lo => .gBundle (gBundle 0 step hi lo)
  | .ginv step hi lo => .gBundle (gBundle 1 step hi lo)
  | .w2b w => .unitCall (.w2b w)
  | .b2w hi lo => .unitCall (.b2w (hi ++ lo))
  | .flookup a => .unitCall (.flookup a)
  | .keysel step i => .unitCall (.keysel (step ++ i))

/-- The raw word that `nbits` bits of spec/opcode_table.json with the value `w` are. The table's formats
overlap, and only the wires tell them apart (`RawWord`): among the formats of a width, the narrowest
that holds `w` is taken, and `W2B` of the two 16-bit layouts. DESIGN CHOICE (log 13). -/
def rawOfTable (nbits w : Nat) : Option RawWord :=
  if nbits = 88 then if w < 2 ^ 88 then some (.command (BitVec.ofNat 88 w)) else none
  else if nbits = 22 ∨ nbits = 24 then
    if w < 2 ^ 22 then some (.gBundle (BitVec.ofNat 22 w)) else none
  else if nbits = 16 then
    if w < 2 ^ 16 then some (.unitCall (.w2b (BitVec.ofNat 16 w))) else none
  else if nbits = 7 then
    if w < 2 ^ 7 then some (.unitCall (.keysel (BitVec.ofNat 7 w))) else none
  else if nbits = 2 ∨ nbits = 8 then
    if w < 2 ^ 2 then some (.roundSelect (BitVec.ofNat 2 w))
    else if nbits = 2 then none
    else if w < 2 ^ 7 then some (.unitCall (.keysel (BitVec.ofNat 7 w)))
    else if w < 2 ^ 8 then some (.unitCall (.flookup (BitVec.ofNat 8 w)))
    else none
  else none

/-- The instruction the decoder reads from an opcode-table word (log 13). -/
def decodeTableWord (nbits w : Nat) : Option Instr :=
  match rawOfTable nbits w with
  | none => none
  | some r =>
    match decode r with
    | .ok i => some i
    | .error _ => none

end Sys2Proof
end

