-- ==== Sys2Proof/Machine/State.lean ====
section
/-! DEFINITION. The machine's state (spec/10_state.md R33) as plain data, the reasons a step can stop, and the
state after reset. -/

namespace Sys2Proof.Machine

/-- `PHASE` (spec/10_state.md R24). Its codes `0b00`, `0b01`, `0b10` are unobservable; `0b11` is not a value
here (spec/30_encoding.md R71). -/
inductive Phase where
  | idle
  | enc
  | dec
deriving DecidableEq, Repr

/-- What an operation of the datapath returns when it is evaluated on its own (log 5). -/
inductive UnitResult where
  /-- The byte of `FLOOKUP`. -/
  | byte (b : Byte)
  /-- The pair `(hi, lo)` of `W2B`. -/
  | bytes (hi lo : Byte)
  /-- The word of `G`, `GINV`, `B2W`. -/
  | word (w : Word)
  /-- The key index of `KEYSEL`. -/
  | index (j : Fin 10)
deriving DecidableEq, Repr

/-- The faults: none. "The core raises no synchronous exception" (spec/60_exceptions.md R140), has no
interrupt (R143) and no trap (R145), and a model must not add one (log 20). -/
inductive Fault where
deriving DecidableEq, Repr

/-- The refusals of spec/60_exceptions.md R142 and spec/30_encoding.md R71: situations to which the spec gives no next
state. -/
inductive Refusal where
  /-- An instruction without a meaning in `exec`. No arm raises it: every instruction has its meaning. -/
  | notModelled (mnemonic : String)
  /-- A reserved encoding at the command port (R70, R131), raised when the word is fetched. Safe. -/
  | reservedEncoding (e : DecodeError)
  /-- A host command given to `exec` while `PHASE` is not `IDLE` (R125). A step never raises it: a word
  presented while busy waits (log 7). Safe. -/
  | notReady
  /-- An operation that reads `KEY` while `KV = 0` (R25, R31, R142). Safe. -/
  | keyNotLoaded
  /-- An operation that reads `W` while `BV = 0` (R25, R31, R142). Safe. -/
  | blockNotLoaded
  /-- A stepping rule, or a bundle at the G unit, outside a round: `PHASE = IDLE`, or `CTR = 0` (R64, R71; log 8,
  log 9, log 12). Safe. -/
  | noRoundInProgress
deriving DecidableEq, Repr

/-- The state of one instance of the core: the spec's tuple (R33) with the written marks (R25), and four
fields of the model's own that stand for what lies outside the core. -/
structure State where
  /-- `KEY[0..9]` (R21). -/
  key : Key
  /-- `W[0..3]` (R22). -/
  w : Block
  /-- `CTR`, 0..32 (R23). -/
  ctr : Counter
  /-- `PHASE` (R24). -/
  phase : Phase
  /-- `KV`: `KEY` was written since reset (R25). -/
  kv : Bool
  /-- `BV`: `W` was written since reset (R25). -/
  bv : Bool
  /-- `OUT`: what `RDBLK` put on the output port, oldest first (R33). -/
  out : List Dout
  /-- The model's own: the words the host presents, the one at the port first (log 2). -/
  host : List CmdWord
  /-- The model's own: the level of the reset input at the coming steps; past the end it is released (log 3). -/
  rstLine : List Bool
  /-- The model's own: an operation of format P to evaluate at the function level; no step fills it (log 4). A bundle
  of the G unit is no value of this type: in `IDLE` there is none (spec/30_encoding.md R71). -/
  call : Option UnitCall
  /-- The model's own: what such evaluations returned, oldest first; nothing reads it (log 5). -/
  results : List UnitResult
deriving DecidableEq, Repr

/-- The state after reset (spec/10_state.md R31, spec/70_reset_and_hazards.md R160). `key` and `w` are the model's
names for "no value" (log 1); `host`, `rstLine`, `call` and `results` are the model's own (log 2 to log 5). -/
def State.reset : State where
  key := Config.resetKey
  w := Config.resetBlock
  ctr := 0
  phase := .idle
  kv := false
  bv := false
  out := []
  host := []
  rstLine := []
  call := none
  results := []

end Sys2Proof.Machine
end

