-- ==== Sys2Proof/Machine/Ops.lean ====
section
/-! DEFINITION. The named operations over the registers, and the guards that say when an operation has a next
state. The core has no data memory (spec/20_memory.md R40), takes no exception and returns from none
(spec/60_exceptions.md R140, R145, R146), so no operation here does. -/

namespace Sys2Proof.Machine

/-- The outcome of an instruction. -/
abbrev Result := Host.Outcome State Fault Refusal

/-- All ten bytes of `KEY` at once, and its mark (spec/44_host_commands.md R126). -/
def State.loadKey (s : State) (k : Key) : State := { s with key := k, kv := true }

/-- All four words of `W` at once, and their mark (R127). -/
def State.loadBlock (s : State) (b : Block) : State := { s with w := b, bv := true }

/-- All four words of `W` at once, by a stepping rule, which writes nothing else (spec/42_stepping_rules.md R104). -/
def State.putBlock (s : State) (b : Block) : State := { s with w := b }

/-- `emit out(v)`: append to `OUT` (spec/00_scope.md R10, R128). -/
def State.emit (s : State) (v : Dout) : State := { s with out := s.out ++ [v] }

/-- The start of a transform: `PHASE` and `CTR` at once (R129, R130). -/
def State.start (s : State) (p : Phase) (c : Counter) : State := { s with phase := p, ctr := c }

/-- Record what an operation evaluated on its own returned (log 5). -/
def State.record (s : State) (v : UnitResult) : State := { s with results := s.results ++ [v] }

/-- A host command is accepted only while `PHASE = IDLE` (R125). -/
def State.whenReady (s : State) (o : Result) : Result :=
  if s.phase = .idle then o else .refused .notReady

/-- What reads `KEY` is refused until `LDKEY` has written it (spec/10_state.md R25, R31). -/
def State.whenKey (s : State) (o : Result) : Result :=
  if s.kv then o else .refused .keyNotLoaded

/-- What reads `W` is refused until `LDBLK` has written it (R25, R31). -/
def State.whenBlock (s : State) (o : Result) : Result :=
  if s.bv then o else .refused .blockNotLoaded

/-- A stepping rule, or a bundle at the G unit, has a meaning only in a round: `PHASE` not `IDLE` and `CTR` in
1..32 (spec/30_encoding.md R64, R71). -/
def State.whenRound (s : State) (o : Result) : Result :=
  if s.phase ≠ .idle ∧ s.ctr ≠ 0 then o else .refused .noRoundInProgress

/-- Reset: the spec's state after reset, whatever went before (spec/70_reset_and_hazards.md R160). The inputs are
not the core's and stay: the words the host goes on to present, and the reset line itself (log 19). -/
def State.applyReset (s : State) : State :=
  { State.reset with host := s.host, rstLine := s.rstLine }

end Sys2Proof.Machine
end

