-- ==== Sys2Proof/Machine/Flags.lean ====
section
/-! DEFINITION. The derived signals, functions of the state that no field stores (spec/10_state.md R26, R28). The core
has no condition code, carry, zero, sign, overflow or error flag (R28). -/

namespace Sys2Proof.Machine

/-- `ready = (PHASE == IDLE)`, the one status signal (R28). -/
def State.ready (s : State) : Bool := decide (s.phase = .idle)

/-- `step = CTR - 1` (R26); free while `CTR = 0` (log 22). -/
def State.step (s : State) : Step := stepOf s.ctr

/-- `band = step[4:3]` (R26); free while `CTR = 0` (log 22). -/
def State.band (s : State) : BitVec 2 := s.step.extractLsb' 3 2

/-- The direction of a round in progress. -/
inductive Direction where
  | enc
  | dec
deriving DecidableEq, Repr

/-- The direction `PHASE` gives a round; in `IDLE` there is no round and none. -/
def Phase.direction : Phase → Option Direction
  | .idle => none
  | .enc => some .enc
  | .dec => some .dec

/-- `dec`: `rsel[1]`, and the G unit's `inv` (spec/30_encoding.md R64, R65). -/
def Direction.decBit : Direction → BitVec 1
  | .enc => 0
  | .dec => 1

/-- The word on the G unit's input in a round: `W[0]` for `G`, `W[1]` for `GINV` (spec/41_g_permutation.md R95). -/
def Direction.gInput : Direction → Block → Word
  | .enc, b => b.w0
  | .dec, b => b.w1

/-- `rsel = (dec, step[3])`, the rule selected for the round (R64). In `IDLE` there is none (spec/30_encoding.md R71). -/
def State.rsel (s : State) : Option (BitVec 2) :=
  s.phase.direction.map (fun d => d.decBit ++ s.step.extractLsb' 3 1)

/-- `gop = (inv, step, hi, lo)`, the G unit's bundle in a round (R65, spec/41_g_permutation.md R95). In `IDLE` there is none
(spec/30_encoding.md R71). -/
def State.gop (s : State) : Option (BitVec 22) :=
  s.phase.direction.map (fun d =>
    gBundle d.decBit s.step (wordToBytes (d.gInput s.w)).1 (wordToBytes (d.gInput s.w)).2)

end Sys2Proof.Machine
end

