-- ==== Sys2Proof/Machine/Commands.lean ====
section
/-! DEFINITION. The five host commands (spec/44_host_commands.md). Each is one atomic transition, accepted only
while `PHASE = IDLE` (R125). -/

namespace Sys2Proof.Machine

/-- `LDKEY k0 .. k9`: every 80-bit value is accepted (R126). -/
def execLdkey (k : Key) (s : State) : Result := s.whenReady (.next (s.loadKey k))

/-- `LDBLK w0 w1 w2 w3` (R127). -/
def execLdblk (b : Block) (s : State) : Result := s.whenReady (.next (s.loadBlock b))

/-- `RDBLK`: emits `W[0] ‖ W[1] ‖ W[2] ‖ W[3]` and leaves `W` intact (R128). -/
def execRdblk (s : State) : Result := s.whenReady (s.whenBlock (.next (s.emit s.w.toDout)))

/-- `ENC`: `PHASE <- ENC`, `CTR <- 1`; the rounds it enables do the rest (R129). -/
def execEnc (s : State) : Result := s.whenReady (s.whenKey (s.whenBlock (.next (s.start .enc 1))))

/-- `DEC`: `PHASE <- DEC`, `CTR <- 32` (R130). -/
def execDec (s : State) : Result := s.whenReady (s.whenKey (s.whenBlock (.next (s.start .dec 32))))

end Sys2Proof.Machine
end

