-- ==== Sys2Proof/Machine/Datapath.lean ====
section
/-! DEFINITION. The six datapath functions `G`, `GINV`, `W2B`, `B2W`, `FLOOKUP`, `KEYSEL`
(spec/40_table_and_conversion.md, spec/41_g_permutation.md). Each is pure: evaluated on its own it writes no
register, and its result is recorded in the model's own `results` (log 5). The table is an argument of the
functions, since the spec's laws hold for every table (R83, R92, R93). -/

namespace Sys2Proof.Machine

/-- `G(K, w, step)`: four stages, each a look-up XORed with the byte of two lines earlier (R90). -/
def gPerm (F : Byte → Byte) (K : Key) (w : Word) (step : Step) : Word :=
  let g1 := (wordToBytes w).1
  let g2 := (wordToBytes w).2
  let g3 := lookup F K step 0 g2 ^^^ g1
  let g4 := lookup F K step 1 g3 ^^^ g2
  let g5 := lookup F K step 2 g4 ^^^ g3
  let g6 := lookup F K step 3 g5 ^^^ g4
  bytesToWord g5 g6

/-- `GINV(K, w, step)`: the forward table and the same four key bytes, in the opposite order (R91). -/
def gInv (F : Byte → Byte) (K : Key) (w : Word) (step : Step) : Word :=
  let g5 := (wordToBytes w).1
  let g6 := (wordToBytes w).2
  let g4 := lookup F K step 3 g5 ^^^ g6
  let g3 := lookup F K step 2 g4 ^^^ g5
  let g2 := lookup F K step 1 g3 ^^^ g4
  let g1 := lookup F K step 0 g2 ^^^ g3
  bytesToWord g1 g2

/-- `G` on the bundle `0, step, hi, lo`; the unit reads `KEY` itself (R65, R90, R95). A bundle has a meaning only in a
round (spec/30_encoding.md R71; log 9). -/
def execG (step : Step) (hi lo : Byte) (s : State) : Result :=
  s.whenRound <| s.whenKey (.next (s.record (.word (gPerm fRom s.key (bytesToWord hi lo) step))))

/-- `GINV` on the bundle `1, step, hi, lo`, in a round (R65, R91, R95, spec/30_encoding.md R71; log 9). -/
def execGinv (step : Step) (hi lo : Byte) (s : State) : Result :=
  s.whenRound <| s.whenKey (.next (s.record (.word (gInv fRom s.key (bytesToWord hi lo) step))))

/-- `W2B` (R81). -/
def execW2b (w : Word) (s : State) : Result :=
  .next (s.record (.bytes (wordToBytes w).1 (wordToBytes w).2))

/-- `B2W` (R82). -/
def execB2w (hi lo : Byte) (s : State) : Result :=
  .next (s.record (.word (bytesToWord hi lo)))

/-- `FLOOKUP` (R80). -/
def execFlookup (a : Byte) (s : State) : Result :=
  .next (s.record (.byte (fRom a)))

/-- `KEYSEL` (R84). -/
def execKeysel (step : Step) (i : Stage) (s : State) : Result :=
  .next (s.record (.index (keySel step i)))

end Sys2Proof.Machine
end

