-- ==== Sys2Proof/Machine/Stepping.lean ====
section
/-! DEFINITION. The four stepping rules (spec/42_stepping_rules.md), as functions from block to block and as
micro-operations on `W` with `K = KEY` and `counter = CTR`. A rule writes neither `KEY`, `CTR` nor `PHASE`:
the scheduler advances the counter. The spec gives the functions for counters 1..32; at counter 0 their step is
free (log 22), and the micro-operations are refused there (log 12). -/

namespace Sys2Proof.Machine

/-- `A(K, b, counter)` (R100). -/
def ruleA (F : Byte → Byte) (K : Key) (b : Block) (c : Counter) : Block :=
  let g := gPerm F K b.w0 (stepOf c)
  ⟨g ^^^ b.w3 ^^^ c16 c, g, b.w1, b.w2⟩

/-- `AINV(K, b, counter)` (R101). -/
def ruleAinv (F : Byte → Byte) (K : Key) (b : Block) (c : Counter) : Block :=
  ⟨gInv F K b.w1 (stepOf c), b.w2, b.w3, b.w0 ^^^ b.w1 ^^^ c16 c⟩

/-- `B(K, b, counter)` (R102). -/
def ruleB (F : Byte → Byte) (K : Key) (b : Block) (c : Counter) : Block :=
  ⟨b.w3, gPerm F K b.w0 (stepOf c), b.w0 ^^^ b.w1 ^^^ c16 c, b.w2⟩

/-- `BINV(K, b, counter)` (R103). -/
def ruleBinv (F : Byte → Byte) (K : Key) (b : Block) (c : Counter) : Block :=
  let g := gInv F K b.w1 (stepOf c)
  ⟨g, g ^^^ b.w2 ^^^ c16 c, b.w3, b.w0⟩

/-- A stepping rule applied to the registers, all four words from the four old ones (R104). Any counter of
a round and either phase will do: the schedule, not the rule, decides which is used when (log 8). -/
def State.applyRule (s : State) (rule : Key → Block → Counter → Block) : Result :=
  s.whenRound (s.whenKey (s.whenBlock (.next (s.putBlock (rule s.key s.w s.ctr)))))

/-- `STEP_A` (R100). -/
def execStepA (s : State) : Result := s.applyRule (ruleA fRom)

/-- `STEP_B` (R102). -/
def execStepB (s : State) : Result := s.applyRule (ruleB fRom)

/-- `STEP_AINV` (R101). -/
def execStepAinv (s : State) : Result := s.applyRule (ruleAinv fRom)

/-- `STEP_BINV` (R103). -/
def execStepBinv (s : State) : Result := s.applyRule (ruleBinv fRom)

end Sys2Proof.Machine
end

