-- ==== Sys2Proof/Machine/Dispatch.lean ====
section
/-! DEFINITION. The meaning of each instruction, one arm per constructor of `Instr`. -/

namespace Sys2Proof.Machine

/-- What instruction `i` does in state `s`. -/
def exec (i : Instr) (s : State) : Host.Outcome State Fault Refusal :=
  match i with
  | .ldkey k => Sys2Proof.Machine.execLdkey k s
  | .ldblk b => Sys2Proof.Machine.execLdblk b s
  | .rdblk => Sys2Proof.Machine.execRdblk s
  | .enc => Sys2Proof.Machine.execEnc s
  | .dec => Sys2Proof.Machine.execDec s
  | .stepA => Sys2Proof.Machine.execStepA s
  | .stepB => Sys2Proof.Machine.execStepB s
  | .stepAinv => Sys2Proof.Machine.execStepAinv s
  | .stepBinv => Sys2Proof.Machine.execStepBinv s
  | .g step hi lo => Sys2Proof.Machine.execG step hi lo s
  | .ginv step hi lo => Sys2Proof.Machine.execGinv step hi lo s
  | .w2b w => Sys2Proof.Machine.execW2b w s
  | .b2w hi lo => Sys2Proof.Machine.execB2w hi lo s
  | .flookup a => Sys2Proof.Machine.execFlookup a s
  | .keysel step n => Sys2Proof.Machine.execKeysel step n s

end Sys2Proof.Machine
end

