-- ==== Sys2Proof/Machine/Engine.lean ====
section
/-! DEFINITION. The schedule, the whole-block functions and the advance of the round counter
(spec/43_engine.md). -/

namespace Sys2Proof.Machine

/-- The family of a round: rule A and its inverse, or rule B and its inverse (R110). -/
inductive Family where
  | a
  | b
deriving DecidableEq, Repr

/-- The schedule as data: first and last counter of each band, and its family (R110). -/
def schedule : List (Nat × Nat × Family) :=
  [(1, 8, .a), (9, 16, .b), (17, 24, .a), (25, 32, .b)]

/-- The family the schedule gives a counter; none outside 1..32 (R110). -/
def scheduled (c : Nat) : Option Family :=
  (schedule.find? (fun band => band.1 ≤ c && c ≤ band.2.1)).map (fun band => band.2.2)

/-- `family(counter) = step(counter)[3]` (R111, spec/30_encoding.md R64); free at counter 0 (log 22). -/
def familyOf (c : Counter) : Family := if (stepOf c).getLsbD 3 then .b else .a

/-- `ENCRULE(K, b, counter)` (R111). -/
def encRule (F : Byte → Byte) (K : Key) (b : Block) (c : Counter) : Block :=
  match familyOf c with
  | .a => ruleA F K b c
  | .b => ruleB F K b c

/-- `DECRULE(K, b, counter)` (R111). -/
def decRule (F : Byte → Byte) (K : Key) (b : Block) (c : Counter) : Block :=
  match familyOf c with
  | .a => ruleAinv F K b c
  | .b => ruleBinv F K b c

/-- The block `b_n` of `ENCRYPT` after the rounds with counters 1 to `n`, for `n` up to 32 (R112; log 22). -/
def encRounds (F : Byte → Byte) (K : Key) (b : Block) : Nat → Block
  | 0 => b
  | n + 1 => encRule F K (encRounds F K b n) (Fin.ofNat 33 (n + 1))

/-- `ENCRYPT(K, b) = b_32` (R112). -/
def encrypt (F : Byte → Byte) (K : Key) (b : Block) : Block := encRounds F K b Config.rounds

/-- The block of `DECRYPT` after its first `n` rounds, those with counters 32 down to `33 - n`, for `n` up to 32 (R113;
log 22). -/
def decRounds (F : Byte → Byte) (K : Key) (b : Block) : Nat → Block
  | 0 => b
  | n + 1 => decRule F K (decRounds F K b n) (Fin.ofNat 33 (Config.rounds - n))

/-- `DECRYPT(K, b) = b_0` (R113). -/
def decrypt (F : Byte → Byte) (K : Key) (b : Block) : Block := decRounds F K b Config.rounds

/-- What `ROUND` writes beside `W`: the next `CTR`, and `PHASE <- IDLE` with the last round (R114). -/
def State.advance (s : State) : State :=
  match s.phase with
  | .idle => s
  | .enc => if s.ctr = 32 then s.start .idle 0 else s.start .enc (s.ctr + 1)
  | .dec => if s.ctr = 1 then s.start .idle 0 else s.start .dec (s.ctr - 1)

end Sys2Proof.Machine
end

