-- ==== Sys2Proof/Machine/Fetch.lean ====
section
/-! DEFINITION. What a state's next step is: which agent acts, and on what (spec/10_state.md R33,
spec/43_engine.md R114, spec/44_host_commands.md R125, spec/60_exceptions.md R144). -/

namespace Sys2Proof.Machine

/-- The next action of the machine. -/
inductive Action where
  /-- No instruction: reset, or idling. The next state is `t`. -/
  | hold (t : State)
  /-- Instruction `i`, in state `t`. -/
  | run (i : Instr) (t : State)
  /-- A `ROUND`: the micro-operation `i` in state `t`, then the advance of `CTR` and `PHASE` (R114). -/
  | round (i : Instr) (t : State)
  /-- No next state. -/
  | reject (r : Refusal)
deriving DecidableEq, Repr

/-- A word the host presents, decoded and run in `t`; a reserved encoding is refused (R70, R131). -/
def fetchCommand (c : CmdWord) (t : State) : Action :=
  match decodeCommand c with
  | .ok i => .run i t
  | .error e => .reject (.reservedEncoding e)

/-- The action of a state whose reset line is released. While there is a select, that is while `PHASE` is not `IDLE`,
it is a `ROUND`, of the rule `rsel` selects, and a word at the port waits. In `IDLE` it is an internal call if there is
one (log 4), else the host's word, else nothing (log 11). -/
def State.fetchReleased (s : State) : Action :=
  match s.rsel, s.call, s.host with
  | some r, _, _ => .round (decodeRoundSelect r) s
  | none, some u, _ => .run (decodeUnitCall u) { s with call := none }
  | none, none, c :: rest => fetchCommand c { s with host := rest }
  | none, none, [] => .hold s

/-- The next action. One level of the reset line is consumed at each step; reset has priority over
everything (R144, R160). -/
def State.fetch (s : State) : Action :=
  match s.rstLine with
  | true :: rest => .hold ({ s with rstLine := rest } : State).applyReset
  | line => ({ s with rstLine := line.tail } : State).fetchReleased

/-- The state in which the very next step runs the raw word `r` (log 14). A command word is put at the
port, in `IDLE`. A round select takes a round that selects it, the first of its band. A bundle takes the round whose
`gop` it is: its direction, its step, its word in `W[0]` or `W[1]`. Both marks are set there, as in every state with a
round in progress (spec/10_state.md R32). An operand pattern of format P is put in `call`, in `IDLE`. -/
def State.present (s : State) (r : RawWord) : State :=
  let idle : State := { s with rstLine := [], phase := .idle, ctr := 0, call := none }
  let round (dec : Bool) (c : Counter) (w : Block) : State :=
    { s with rstLine := [], phase := if dec then .dec else .enc, ctr := c, kv := true, bv := true, w := w }
  match r with
  | .command c => { idle with host := c :: s.host }
  | .roundSelect b => round (b.getLsbD 1) (if b.getLsbD 0 then 9 else 1) s.w
  | .gBundle b =>
    let word : Word := b.extractLsb' 0 16
    let c : Counter := Fin.ofNat 33 ((b.extractLsb' 16 5).toNat + 1)
    if b.getLsbD 21 then round true c { s.w with w1 := word } else round false c { s.w with w0 := word }
  | .unitCall u => { idle with call := some u }

end Sys2Proof.Machine
end

