-- ==== Sys2Proof/Machine/Act.lean ====
section
/-! DEFINITION. Carrying out the action of a step. -/

namespace Sys2Proof.Machine

/-- An action carried out. A `ROUND` advances `CTR` and `PHASE` after its micro-operation, which read the old
`CTR`; the two together are one step (spec/43_engine.md R114, spec/20_memory.md R45). -/
def carryOut : Action → Result
  | .hold t => .next t
  | .reject r => .refused r
  | .run i t => exec i t
  | .round i t =>
    match exec i t with
    | .next u => .next u.advance
    | .fault f => .fault f
    | .refused r => .refused r

end Sys2Proof.Machine
end

