-- ==== Sys2Proof/Machine/Step.lean ====
section
/-! DEFINITION. One step of the machine, and the placing of an instruction where the next step fetches it. -/

namespace Sys2Proof.Machine

/-- One step: the action of the state, carried out. -/
def step (s : State) : Host.Outcome State Fault Refusal := carryOut s.fetch

/-- `s` with an opcode-table word placed where the next step fetches it (log 13, log 14); unchanged where the
table has no format of that width. -/
def State.withFetchWord (s : State) (nbits w : Nat) : State :=
  match rawOfTable nbits w with
  | some r => s.present r
  | none => s

end Sys2Proof.Machine
end

