-- ==== Sys2Proof/Safety.lean ====
section
/-! DEFINITION. What counts as a legal state and a safe run, in the terms the statements use: the invariant of
spec/10_state.md R32, the launch premises of spec/60_exceptions.md R152, runs of the step, and what the host can
see. -/

namespace Sys2Proof.Machine

/-- The invariant of R32 (a) to (c): `CTR = 0` exactly in `IDLE`, and both marks are set while a round is in
progress. (`PHASE` is one of three and `CTR` at most 32 by their types.) -/
abbrev State.Inv (s : State) : Prop :=
  (s.ctr = 0 ↔ s.phase = .idle) ∧ (s.phase ≠ .idle → s.kv = true ∧ s.bv = true)

/-- The reset input is released in the next `n` steps (R152: "no reset occurs within the sequence"). -/
abbrev State.released (s : State) (n : Nat) : Prop := ∀ b ∈ s.rstLine.take n, b = false

/-- `n` steps, ending at the first refusal. -/
def runSteps : Nat → State → Result
  | 0, s => .next s
  | n + 1, s =>
    match step s with
    | .next t => runSteps n t
    | .fault f => .fault f
    | .refused r => .refused r

/-- An outcome with its next state changed by `f`. -/
def mapNext (f : State → State) : Result → Result
  | .next s => .next (f s)
  | .fault x => .fault x
  | .refused r => .refused r

/-- The launch premises of R152 on the words a host presents, from marks `kv`, `bv`: only defined encodings;
an `LDKEY` and an `LDBLK` before the first `ENC` or `DEC`; an `LDBLK` before the first `RDBLK`. -/
def launchOk : Bool → Bool → List CmdWord → Bool
  | _, _, [] => true
  | kv, bv, c :: rest =>
    let op := c.extractLsb' 80 8
    c.wellFormed
      && (if op = 0x03 then bv else if op = 0x04 ∨ op = 0x05 then kv && bv else true)
      && launchOk (kv || op == 0x01) (bv || op == 0x02) rest

/-- A reserved command word, in the words of spec/30_encoding.md R70. -/
abbrev reservedCommand (c : CmdWord) : Prop :=
  (c.extractLsb' 80 8 ≠ 0x01 ∧ c.extractLsb' 80 8 ≠ 0x02 ∧ c.extractLsb' 80 8 ≠ 0x03
      ∧ c.extractLsb' 80 8 ≠ 0x04 ∧ c.extractLsb' 80 8 ≠ 0x05)
    ∨ (c.extractLsb' 80 8 = 0x02 ∧ c.extractLsb' 64 16 ≠ 0)
    ∨ ((c.extractLsb' 80 8 = 0x03 ∨ c.extractLsb' 80 8 = 0x04 ∨ c.extractLsb' 80 8 = 0x05)
      ∧ c.extractLsb' 0 80 ≠ 0)

/-- The state with the contents of unwritten registers blotted out: two states with the same value differ
only in what `KEY` holds while `KV = 0` and in what `W` holds while `BV = 0` (spec/10_state.md R25, R31). -/
def State.masked (s : State) : State :=
  { s with
    key := if s.kv then s.key else Config.resetKey
    w := if s.bv then s.w else Config.resetBlock }

end Sys2Proof.Machine
end

