-- ==== Sys2Proof/Certificates/Slice0/Obligations.lean ====
section
/-! DEFINITION. The statements for the provers, in the order of OBLIGATIONS.json. Each docstring names the rule of
spec/ it formalises; a clause that rests on a choice of the model names the log entry. -/

open Sys2Proof Sys2Proof.Machine

/-! ### Encodings -/

/-- spec/30_encoding.md R61 to R66: decoding the word of an instruction gives the instruction back, with every operand at
every value. (Every term of `Instr` is well-formed by its type, R141.) -/
def Obligations.DecodeEncodeEveryInstruction : Prop :=
  ∀ i : Instr, decode (encode i) = .ok i

/-- R61 to R66: each raw word has one meaning; what decodes is the encoding of what it decodes to. -/
def Obligations.EncodeDecodeEveryWord : Prop :=
  ∀ (r : RawWord) (i : Instr), decode r = .ok i → encode i = r

/-- R64 to R66, R70: exactly the well-formed raw words decode: at the port all but the reserved encodings, on the internal
wires every value of `rsel`, of the bundle and of each operand layout. -/
def Obligations.DecoderAcceptsExactlyWellFormed : Prop :=
  ∀ r : RawWord, (∃ i, decode r = .ok i) ↔ r.wellFormed = true

/-- R70: a reserved command is refused when the host presents it, and every other command word is one of the
five commands. -/
def Obligations.ReservedCommandsAreRefused : Prop :=
  ∀ c : CmdWord,
    (reservedCommand c → ∀ (s : State) (rest : List CmdWord), s.phase = .idle → s.call = none → s.released 1 →
      s.host = c :: rest → ∃ e, step s = .refused (.reservedEncoding e))
    ∧ (¬ reservedCommand c → (∃ k, decodeCommand c = .ok (.ldkey k)) ∨ (∃ b, decodeCommand c = .ok (.ldblk b))
      ∨ decodeCommand c = .ok .rdblk ∨ decodeCommand c = .ok .enc ∨ decodeCommand c = .ok .dec)

/-- R61 to R66: words written out from the encoding tables decode to the operations they stand for. -/
def Obligations.TableWordsDecode : Prop :=
  decode (.command 0x02000033221100ddccbbaa) = .ok (.ldblk ⟨0x3322, 0x1100, 0xddcc, 0xbbaa⟩)
  ∧ decode (.command 0x0300000000000000000000) = .ok .rdblk
  ∧ decode (.command 0x0400000000000000000000) = .ok .enc
  ∧ decode (.command 0x0500000000000000000000) = .ok .dec
  ∧ decode (.roundSelect 0b00) = .ok .stepA ∧ decode (.roundSelect 0b01) = .ok .stepB
  ∧ decode (.roundSelect 0b10) = .ok .stepAinv ∧ decode (.roundSelect 0b11) = .ok .stepBinv
  ∧ decode (.gBundle 0b0111110001001000110100) = .ok (.g 31 0x12 0x34)
  ∧ decode (.gBundle 0b1000100000101110101111) = .ok (.ginv 2 0x0b 0xaf)
  ∧ decode (.unitCall (.keysel 0b0001010)) = .ok (.keysel 2 2)

/-- R62: the argument of `LDKEY`, byte by byte, for every argument, and the rule's example. -/
def Obligations.LdkeyArgumentLayout : Prop :=
  (∀ arg : Arg, ∃ k : Key, decodeCommand (CmdWord.mk 0x01 arg) = .ok (.ldkey k)
    ∧ ∀ i : Fin 10, k.get i = arg.extractLsb' (72 - 8 * i.val) 8)
  ∧ decodeCommand 0x0100998877665544332211
      = .ok (.ldkey #v[0x00, 0x99, 0x88, 0x77, 0x66, 0x55, 0x44, 0x33, 0x22, 0x11])

/-- R63, the layout of the block: the argument of `LDBLK` and the output of `RDBLK` carry `W[0]` in the top
word, and neither loses a bit of the other. -/
def Obligations.BlockArgumentLayout : Prop :=
  ∀ d : Dout, ∃ b : Block,
    decodeCommand (CmdWord.mk 0x02 ((0 : BitVec 16) ++ d)) = .ok (.ldblk b)
    ∧ b.w0 = d.extractLsb' 48 16 ∧ b.w1 = d.extractLsb' 32 16
    ∧ b.w2 = d.extractLsb' 16 16 ∧ b.w3 = d.extractLsb' 0 16
    ∧ b.toDout = d

/-! ### The function level -/

/-- spec/40_table_and_conversion.md R83: the two conversions are mutually inverse. -/
def Obligations.ConversionsAreInverse : Prop :=
  (∀ w : Word, bytesToWord (wordToBytes w).1 (wordToBytes w).2 = w)
  ∧ (∀ hi lo : Byte, wordToBytes (bytesToWord hi lo) = (hi, lo))

/-- R80, corner cases of the table as the spec gives it (log 10): `F[0x00] = 0xa3`, `0x69` is the only address of a
zero entry, no address is a fixed point, and the table is a permutation. -/
def Obligations.TableCornerCases : Prop :=
  fRom 0x00 = 0xa3 ∧ (∀ a : Byte, fRom a = 0 ↔ a = 0x69) ∧ (∀ a : Byte, fRom a ≠ a)
  ∧ (∀ a b : Byte, fRom a = fRom b → a = b)

/-- R84: `KEYSEL`, its layout as the number `4*step + i` (R66), its period and the even start. -/
def Obligations.KeyIndexPattern : Prop :=
  ∀ (step : Step) (i : Stage),
    (keySel step i).val = (4 * step.toNat + i.toNat) % 10
    ∧ (step ++ i : BitVec 7).toNat = 4 * step.toNat + i.toNat
    ∧ (keySel step 0).val % 2 = 0
    ∧ (step.toNat + 5 < 32 → keySel (step + 5) i = keySel step i)

/-- spec/30_encoding.md R69: the counter operand is the counter's value in 16 bits, and touches bits 5:0 only.
The rule gives it for counters 1..32; at counter 0 the same formula is the model's choice (log 22). -/
def Obligations.CounterOperandIsZeroExtended : Prop :=
  ∀ c : Counter, (c16 c).toNat = c.val ∧ ∀ w : Word, (w ^^^ c16 c).extractLsb' 6 10 = w.extractLsb' 6 10

/-- spec/41_g_permutation.md R92: `GINV` undoes `G` and `G` undoes `GINV`, for every table, key, word and step. -/
def Obligations.GAndGinvAreInverse : Prop :=
  ∀ (F : Byte → Byte) (K : Key) (w : Word) (step : Step),
    gInv F K (gPerm F K w step) step = w ∧ gPerm F K (gInv F K w step) step = w

/-- R93: `G(K, ·, step)` is a bijection whether or not the table is one, `GINV(K, ·, step)` is its inverse; `G`
depends on the step only through the four key bytes it selects, so it repeats every five steps; and two different rounds (counters 1..32) with the same key bytes still differ, by the counter each
rule XORs in. -/
def Obligations.GIsAPeriodicBijection : Prop :=
  ∀ (F : Byte → Byte) (K : Key),
    (∀ step : Step, Function.Bijective (fun w => gPerm F K w step)
      ∧ Function.LeftInverse (fun w => gInv F K w step) (fun w => gPerm F K w step)
      ∧ Function.RightInverse (fun w => gInv F K w step) (fun w => gPerm F K w step))
    ∧ (∀ (step step' : Step) (w : Word), (∀ i : Stage, keyByte K step i = keyByte K step' i) →
        gPerm F K w step = gPerm F K w step')
    ∧ (∀ (step : Step) (w : Word), step.toNat + 5 < 32 → gPerm F K w (step + 5) = gPerm F K w step)
    ∧ (∀ w : Word, gPerm F K w 0 = gPerm F K w 15)
    ∧ (∀ (b : Block) (c d : Counter), c ≠ 0 → d ≠ 0 → c ≠ d →
        (∀ i : Stage, keySel (stepOf c) i = keySel (stepOf d) i) →
        ruleA F K b c ≠ ruleA F K b d ∧ ruleB F K b c ≠ ruleB F K b d
        ∧ ruleAinv F K b c ≠ ruleAinv F K b d ∧ ruleBinv F K b c ≠ ruleBinv F K b d)

/-- spec/42_stepping_rules.md R105: the inverse rules undo the rules and the rules the inverse rules, for every table, so
each is a bijection on blocks. The rule gives it for counters 1..32; it holds at the model's counter 0 too, whatever the
free step there (log 22). -/
def Obligations.SteppingRulesAreInverse : Prop :=
  ∀ (F : Byte → Byte) (K : Key) (c : Counter),
    (∀ b : Block, ruleAinv F K (ruleA F K b c) c = b ∧ ruleBinv F K (ruleB F K b c) c = b
      ∧ ruleA F K (ruleAinv F K b c) c = b ∧ ruleB F K (ruleBinv F K b c) c = b)
    ∧ Function.Bijective (fun b => ruleA F K b c) ∧ Function.Bijective (fun b => ruleB F K b c)
    ∧ Function.Bijective (fun b => ruleAinv F K b c) ∧ Function.Bijective (fun b => ruleBinv F K b c)

/-- spec/43_engine.md R110, R111, spec/30_encoding.md R64: bit 3 of the step reproduces the band table, and the round
select of a state in a round is the micro-operation the table gives its direction. -/
def Obligations.RoundSelectFollowsSchedule : Prop :=
  (∀ c : Counter, c ≠ 0 → scheduled c.val = some (familyOf c))
  ∧ ∀ s : State, s.ctr ≠ 0 →
    (s.phase = .enc →
      s.rsel.map decodeRoundSelect = some (if scheduled s.ctr.val = some .a then .stepA else .stepB))
    ∧ (s.phase = .dec →
      s.rsel.map decodeRoundSelect = some (if scheduled s.ctr.val = some .a then .stepAinv else .stepBinv))

/-- R110, R112, R113: `ENCRYPT` is eight rounds of A, of B, of A, of B with counters ascending from 1, and nothing else;
`DECRYPT` is eight of B_inv, of A_inv, of B_inv, of A_inv with the same counters descending from 32. -/
def Obligations.TransformsRunTheBands : Prop :=
  ∀ (F : Byte → Byte) (K : Key) (b : Block),
    let eight (rule : (Byte → Byte) → Key → Block → Counter → Block) (c1 c2 c3 c4 c5 c6 c7 c8 : Counter)
        (x : Block) : Block :=
      rule F K (rule F K (rule F K (rule F K (rule F K (rule F K (rule F K (rule F K x c1) c2) c3) c4) c5) c6) c7) c8
    encrypt F K b
      = eight ruleB 25 26 27 28 29 30 31 32 (eight ruleA 17 18 19 20 21 22 23 24
          (eight ruleB 9 10 11 12 13 14 15 16 (eight ruleA 1 2 3 4 5 6 7 8 b)))
    ∧ decrypt F K b
      = eight ruleAinv 8 7 6 5 4 3 2 1 (eight ruleBinv 16 15 14 13 12 11 10 9
          (eight ruleAinv 24 23 22 21 20 19 18 17 (eight ruleBinv 32 31 30 29 28 27 26 25 b)))

/-- R117, the function level: decryption undoes encryption and encryption undoes decryption, for every table and key,
so both are bijections on blocks. -/
def Obligations.EncryptDecryptRoundTrip : Prop :=
  ∀ (F : Byte → Byte) (K : Key),
    (∀ b : Block, decrypt F K (encrypt F K b) = b ∧ encrypt F K (decrypt F K b) = b)
    ∧ Function.Bijective (encrypt F K) ∧ Function.Bijective (decrypt F K)

/-! ### Reset -/

/-- spec/10_state.md R31: the values the spec gives for reset. -/
def Obligations.ResetLeavesTheSpecValues : Prop :=
  State.reset.phase = .idle ∧ State.reset.ctr = 0 ∧ State.reset.kv = false ∧ State.reset.bv = false
  ∧ State.reset.ready = true ∧ State.reset.out = []

/-- spec/60_exceptions.md R144, spec/70_reset_and_hazards.md R160: while reset is asserted neither a command nor a round takes
place, in any state, and the state becomes the reset state. That the host's words and the rest of the reset line stay
is the model's choice (log 19), as are the named contents of `KEY` and `W` (log 1). -/
def Obligations.ResetOverridesEverything : Prop :=
  ∀ (s : State) (rest : List Bool), s.rstLine = true :: rest →
    step s = .next { State.reset with host := s.host, rstLine := rest }

/-- spec/10_state.md R25, R31, spec/60_exceptions.md R142: whatever would read `KEY` or `W` before it is written is refused. -/
def Obligations.ReadsRefusedUntilLoaded : Prop :=
  ∀ s : State,
    (s.kv = false →
      (s.phase = .idle → exec .enc s = .refused .keyNotLoaded ∧ exec .dec s = .refused .keyNotLoaded)
      ∧ (∀ step hi lo, s.phase ≠ .idle → s.ctr ≠ 0 → exec (.g step hi lo) s = .refused .keyNotLoaded
        ∧ exec (.ginv step hi lo) s = .refused .keyNotLoaded)
      ∧ (∀ step hi lo, (∃ r, exec (.g step hi lo) s = .refused r) ∧ ∃ r, exec (.ginv step hi lo) s = .refused r)
      ∧ (∀ i : Instr, i.group = .micro → ∃ r, exec i s = .refused r))
    ∧ (s.bv = false →
      (s.phase = .idle → exec .rdblk s = .refused .blockNotLoaded)
      ∧ (s.phase = .idle → s.kv = true →
        exec .enc s = .refused .blockNotLoaded ∧ exec .dec s = .refused .blockNotLoaded)
      ∧ (∀ i : Instr, i.group = .micro → ∃ r, exec i s = .refused r))

/-! ### Host commands -/

/-- spec/44_host_commands.md R126: `LDKEY` completes in `IDLE`, writes all ten bytes and `KV` and nothing else, for every
80-bit argument; reloading the loaded key changes nothing; the rule's example. -/
def Obligations.LdkeyLoadsTheWholeKey : Prop :=
  (∀ (k : Key) (s : State), s.phase = .idle → exec (.ldkey k) s = .next { s with key := k, kv := true })
  ∧ (∀ (k : Key) (s : State), s.phase = .idle → s.kv = true → s.key = k → exec (.ldkey k) s = .next s)
  ∧ (∀ (k k' : Key) (s t : State), s.phase = .idle → exec (.ldkey k') s = .next t →
      exec (.ldkey k) t = exec (.ldkey k) s)
  ∧ (∀ arg : Arg, ∃ k, decodeCommand (CmdWord.mk 0x01 arg) = .ok (.ldkey k))
  ∧ decodeCommand 0x0100998877665544332211
      = .ok (.ldkey #v[0x00, 0x99, 0x88, 0x77, 0x66, 0x55, 0x44, 0x33, 0x22, 0x11])

/-- R127: `LDBLK` completes in `IDLE`, writes all four words and `BV` and nothing else, for every 64-bit block, before or
after `LDKEY` alike; what `W` held is discarded; the rule's example. -/
def Obligations.LdblkLoadsTheWholeBlock : Prop :=
  (∀ (b : Block) (s : State), s.phase = .idle → exec (.ldblk b) s = .next { s with w := b, bv := true })
  ∧ (∀ (b : Block) (k : Key) (s t u : State), s.phase = .idle → exec (.ldblk b) s = .next t →
      exec (.ldkey k) s = .next u → exec (.ldkey k) t = exec (.ldblk b) u)
  ∧ (∀ (b b' : Block) (s t : State), s.phase = .idle → exec (.ldblk b') s = .next t →
      exec (.ldblk b) t = exec (.ldblk b) s)
  ∧ (∀ d : Dout, ∃ b, decodeCommand (CmdWord.mk 0x02 ((0 : BitVec 16) ++ d)) = .ok (.ldblk b))
  ∧ decodeCommand 0x02000033221100ddccbbaa = .ok (.ldblk ⟨0x3322, 0x1100, 0xddcc, 0xbbaa⟩)

/-- R128: `RDBLK` completes in `IDLE` with a block written, appends `W[0] ‖ W[1] ‖ W[2] ‖ W[3]` to `OUT` and writes nothing
else, and may be repeated; straight after `LDBLK` it gives the loaded block. -/
def Obligations.RdblkEmitsTheBlock : Prop :=
  ∀ s : State, s.phase = .idle →
    (s.bv = true → exec .rdblk s = .next { s with out := s.out ++ [s.w.w0 ++ s.w.w1 ++ s.w.w2 ++ s.w.w3] })
    ∧ (s.bv = true → ∀ t, exec .rdblk s = .next t →
        exec .rdblk t = .next { s with out := s.out ++ [s.w.toDout, s.w.toDout] })
    ∧ (∀ (b : Block) (t : State), exec (.ldblk b) s = .next t →
        exec .rdblk t = .next { t with out := s.out ++ [b.toDout] })

/-- R129: `ENC` completes in `IDLE` with key and block written; it starts the round counter at 1, `ready` falls, and
nothing else is written. -/
def Obligations.EncStartsAtCounterOne : Prop :=
  ∀ s : State, s.phase = .idle → s.kv = true → s.bv = true →
    ∃ t, exec .enc s = .next t ∧ t = { s with phase := .enc, ctr := 1 } ∧ t.ready = false

/-- R130: `DEC` completes in `IDLE` with key and block written; it starts the round counter at 32, `ready` falls, and
nothing else is written. -/
def Obligations.DecStartsAtCounterThirtyTwo : Prop :=
  ∀ s : State, s.phase = .idle → s.kv = true → s.bv = true →
    ∃ t, exec .dec s = .next t ∧ t = { s with phase := .dec, ctr := 32 } ∧ t.ready = false

/-- R125: while `PHASE` is not `IDLE` the presented word, whatever it is, has no influence on the step and is neither
latched, queued nor lost. (Given to `exec` directly it has no next state; that refusal's name is the model's, log 7.) -/
def Obligations.CommandsWaitWhileBusy : Prop :=
  ∀ s : State, s.phase ≠ .idle →
    (∀ h : List CmdWord, step { s with host := h } = mapNext (fun t => { t with host := h }) (step s))
    ∧ (∀ (c : CmdWord) (i : Instr), decodeCommand c = .ok i → exec i s = .refused .notReady)

/-! ### Stepping rules -/

/-- spec/42_stepping_rules.md R100: `STEP_A` completes in a round, at every counter, and writes all of `W` from the old words
and nothing else. -/
def Obligations.StepARewritesTheBlock : Prop :=
  ∀ s : State, s.phase ≠ .idle → s.ctr ≠ 0 → s.kv = true → s.bv = true →
    let g := gPerm fRom s.key s.w.w0 (BitVec.ofNat 5 (s.ctr.val - 1))
    exec .stepA s = .next { s with w := ⟨g ^^^ s.w.w3 ^^^ BitVec.ofNat 16 s.ctr.val, g, s.w.w1, s.w.w2⟩ }

/-- R102: `STEP_B`. -/
def Obligations.StepBRewritesTheBlock : Prop :=
  ∀ s : State, s.phase ≠ .idle → s.ctr ≠ 0 → s.kv = true → s.bv = true →
    let g := gPerm fRom s.key s.w.w0 (BitVec.ofNat 5 (s.ctr.val - 1))
    exec .stepB s = .next { s with w := ⟨s.w.w3, g, s.w.w0 ^^^ s.w.w1 ^^^ BitVec.ofNat 16 s.ctr.val, s.w.w2⟩ }

/-- R101: `STEP_AINV`. -/
def Obligations.StepAinvRewritesTheBlock : Prop :=
  ∀ s : State, s.phase ≠ .idle → s.ctr ≠ 0 → s.kv = true → s.bv = true →
    let h := gInv fRom s.key s.w.w1 (BitVec.ofNat 5 (s.ctr.val - 1))
    exec .stepAinv s = .next { s with w := ⟨h, s.w.w2, s.w.w3, s.w.w0 ^^^ s.w.w1 ^^^ BitVec.ofNat 16 s.ctr.val⟩ }

/-- R103: `STEP_BINV`. -/
def Obligations.StepBinvRewritesTheBlock : Prop :=
  ∀ s : State, s.phase ≠ .idle → s.ctr ≠ 0 → s.kv = true → s.bv = true →
    let h := gInv fRom s.key s.w.w1 (BitVec.ofNat 5 (s.ctr.val - 1))
    exec .stepBinv s = .next { s with w := ⟨h, h ^^^ s.w.w2 ^^^ BitVec.ofNat 16 s.ctr.val, s.w.w3, s.w.w0⟩ }

/-- spec/30_encoding.md R64, R71: while `PHASE = IDLE` there is no select, and a stepping rule has no meaning (log 8). -/
def Obligations.SteppingRulesNeedARound : Prop :=
  ∀ s : State, s.phase = .idle →
    s.rsel = none ∧ ∀ i : Instr, i.group = .micro → exec i s = .refused .noRoundInProgress

/-! ### The datapath on its own -/

/-- spec/41_g_permutation.md R90, R91, spec/30_encoding.md R65: `G` and `GINV` complete in a round, on every bundle, by
the four lines of their rules, and write no register. That they do so in either direction and on every bundle, not on
the round's own alone, is the model's reading (log 9), and that the word returned is recorded in `results` is its
choice (log 5). -/
def Obligations.GUnitComputesItsFourStages : Prop :=
  ∀ (s : State) (step : Step) (a b : Byte), s.phase ≠ .idle → s.ctr ≠ 0 → s.kv = true →
    let k (i : Nat) : Byte := s.key.get (Fin.ofNat 10 (4 * step.toNat + i))
    (let g3 := fRom (b ^^^ k 0) ^^^ a
     let g4 := fRom (g3 ^^^ k 1) ^^^ b
     let g5 := fRom (g4 ^^^ k 2) ^^^ g3
     let g6 := fRom (g5 ^^^ k 3) ^^^ g4
     exec (.g step a b) s = .next { s with results := s.results ++ [.word (g5 ++ g6)] })
    ∧ (let g4 := fRom (a ^^^ k 3) ^^^ b
       let g3 := fRom (g4 ^^^ k 2) ^^^ a
       let g2 := fRom (g3 ^^^ k 1) ^^^ g4
       let g1 := fRom (g2 ^^^ k 0) ^^^ g3
       exec (.ginv step a b) s = .next { s with results := s.results ++ [.word (g1 ++ g2)] })

/-- spec/40_table_and_conversion.md R80, R81, R82, R84: `W2B`, `B2W`, `FLOOKUP`, `KEYSEL` complete in every state, on every
operand, and write no register. That the value returned is recorded in `results` is the model's choice (log 5). -/
def Obligations.SelectorlessUnitsComplete : Prop :=
  ∀ s : State,
    (∀ w, exec (.w2b w) s
      = .next { s with results := s.results ++ [.bytes (w.extractLsb' 8 8) (w.extractLsb' 0 8)] })
    ∧ (∀ hi lo, exec (.b2w hi lo) s = .next { s with results := s.results ++ [.word (hi ++ lo)] })
    ∧ (∀ a, exec (.flookup a) s = .next { s with results := s.results ++ [.byte (fRom a)] })
    ∧ (∀ step i, exec (.keysel step i) s
      = .next { s with results := s.results ++ [.index (Fin.ofNat 10 (4 * step.toNat + i.toNat))] })

/-! ### The machine -/

/-- spec/43_engine.md R114: `ROUND` is what a step does exactly while `PHASE` is not `IDLE` and no reset is asserted; the new
`W`, `CTR` and `PHASE` and what stays; the micro-operation `rsel` selects; `ready` rises with the last round; the
rule's example. -/
def Obligations.RoundStepOfTheEngine : Prop :=
  (∀ s : State, s.released 1 → s.ctr ≠ 0 → s.kv = true → s.bv = true →
    (s.phase = .enc → step s = .next { s with
      rstLine := s.rstLine.tail
      w := encRule fRom s.key s.w s.ctr
      ctr := if s.ctr = 32 then 0 else s.ctr + 1
      phase := if s.ctr = 32 then .idle else .enc })
    ∧ (s.phase = .dec → step s = .next { s with
      rstLine := s.rstLine.tail
      w := decRule fRom s.key s.w s.ctr
      ctr := if s.ctr = 1 then 0 else s.ctr - 1
      phase := if s.ctr = 1 then .idle else .dec })
    ∧ (∀ t, s.phase ≠ .idle → step s = .next t →
      (t.ready = true ↔ (s.phase = .enc ∧ s.ctr = 32 ∨ s.phase = .dec ∧ s.ctr = 1))))
  ∧ (∀ s : State, s.released 1 →
    ((∃ i t, s.fetch = .round i t) ↔ s.phase ≠ .idle)
    ∧ (∀ i t, s.ctr ≠ 0 → s.fetch = .round i t → i = decodeRoundSelect
        (BitVec.ofBool (decide (s.phase = .dec)) ++ BitVec.ofBool ((BitVec.ofNat 5 (s.ctr.val - 1)).getLsbD 3))))
  ∧ (∀ s : State, s.released 1 → s.phase = .enc → s.ctr = 1 → s.kv = true → s.bv = true →
    s.key = #v[0x00, 0x99, 0x88, 0x77, 0x66, 0x55, 0x44, 0x33, 0x22, 0x11] →
    s.w = ⟨0x3322, 0x1100, 0xddcc, 0xbbaa⟩ →
    ∃ t, step s = .next t ∧ t.w = ⟨0xb004, 0x0baf, 0x1100, 0xddcc⟩ ∧ t.ctr = 2 ∧ t.phase = .enc)

/-- spec/44_host_commands.md R125, spec/43_engine.md R114: with reset released, a step runs the instruction it decodes. In `IDLE` it
is `exec` of the command at the port, which is taken from the port; in a round it is `exec` of the micro-operation
`rsel` selects, and then the advance of `CTR` and `PHASE`; an internal call (log 4) is run in `IDLE` before the port. -/
def Obligations.StepRunsTheDecodedInstruction : Prop :=
  ∀ s : State, s.released 1 →
    (∀ (c : CmdWord) (rest : List CmdWord) (i : Instr), s.phase = .idle → s.call = none → s.host = c :: rest →
      decode (.command c) = .ok i → step s = exec i { s with rstLine := s.rstLine.tail, host := rest })
    ∧ (∀ (u : UnitCall) (i : Instr), s.phase = .idle → s.call = some u → decode (.unitCall u) = .ok i →
      step s = exec i { s with rstLine := s.rstLine.tail, call := none })
    ∧ (s.phase ≠ .idle → ∃ r, s.rsel = some r)
    ∧ (∀ (r : BitVec 2) (i : Instr), s.rsel = some r → decode (.roundSelect r) = .ok i →
      step s = mapNext State.advance (exec i { s with rstLine := s.rstLine.tail }))

/-- spec/70_reset_and_hazards.md R170, spec/60_exceptions.md R151: in `IDLE`, until a command arrives, all state survives any number of
idle steps (only the model's own reset line runs on, log 3). -/
def Obligations.IdleStepsKeepEverything : Prop :=
  ∀ (n : Nat) (s : State), s.released n → s.phase = .idle → s.call = none → s.host = [] →
    runSteps n s = .next { s with rstLine := s.rstLine.drop n }

/-- spec/10_state.md R32 (a) to (c) hold after reset. -/
def Obligations.InvariantHoldsAtReset : Prop := State.reset.Inv

/-- R32 (a) to (c) are kept by every step from every state in which they hold. -/
def Obligations.InvariantKeptByEveryStep : Prop :=
  ∀ s t : State, s.Inv → step s = .next t → t.Inv

/-- R32 (e): `n` rounds into a transform, `W` is what the first `n` rounds of `ENCRYPT` or `DECRYPT` make of the block that was
in `W` when the command was accepted, and the counter is at its place. -/
def Obligations.BlockDuringATransform : Prop :=
  ∀ (s : State) (c : CmdWord) (rest : List CmdWord) (n : Nat), n < 32 → s.released (n + 1) →
    s.phase = .idle → s.call = none → s.kv = true → s.bv = true → s.host = c :: rest →
    (c = 0x0400000000000000000000 → runSteps (n + 1) s = .next { s with
      host := rest
      rstLine := s.rstLine.drop (n + 1)
      phase := .enc
      ctr := Fin.ofNat 33 (n + 1)
      w := encRounds fRom s.key s.w n })
    ∧ (c = 0x0500000000000000000000 → runSteps (n + 1) s = .next { s with
      host := rest
      rstLine := s.rstLine.drop (n + 1)
      phase := .dec
      ctr := Fin.ofNat 33 (32 - n)
      w := decRounds fRom s.key s.w n })

/-- spec/43_engine.md R116: an accepted `ENC` and the 32 rounds that follow leave `W = ENCRYPT(KEY, W)`, an accepted `DEC` and its
rounds `W = DECRYPT(KEY, W)`, with `PHASE = IDLE`, `CTR = 0` and everything else as it was. -/
def Obligations.TransformRefinesTheFunction : Prop :=
  ∀ (s : State) (c : CmdWord) (rest : List CmdWord), s.released 33 →
    s.phase = .idle → s.call = none → s.kv = true → s.bv = true → s.host = c :: rest →
    (c = 0x0400000000000000000000 → runSteps 33 s = .next { s with
      host := rest
      rstLine := s.rstLine.drop 33
      phase := .idle
      ctr := 0
      w := encrypt fRom s.key s.w })
    ∧ (c = 0x0500000000000000000000 → runSteps 33 s = .next { s with
      host := rest
      rstLine := s.rstLine.drop 33
      phase := .idle
      ctr := 0
      w := decrypt fRom s.key s.w })

/-- R115, spec/70_reset_and_hazards.md R164: from any state in a round the transform ends after the rounds its counter leaves, not
before and not later, with the key, the marks, the output and the host's words untouched all the way. -/
def Obligations.TransformEndsOnTime : Prop :=
  ∀ (s : State) (n : Nat), s.Inv → s.released n →
    (s.phase = .enc → n ≤ 33 - s.ctr.val →
      ∃ t, runSteps n s = .next t ∧ t.key = s.key ∧ t.kv = s.kv ∧ t.bv = s.bv ∧ t.out = s.out ∧ t.host = s.host
        ∧ (if n = 33 - s.ctr.val then t.phase = .idle ∧ t.ctr = 0 ∧ t.ready = true
           else t.phase = .enc ∧ t.ctr.val = s.ctr.val + n))
    ∧ (s.phase = .dec → n ≤ s.ctr.val →
      ∃ t, runSteps n s = .next t ∧ t.key = s.key ∧ t.kv = s.kv ∧ t.bv = s.bv ∧ t.out = s.out ∧ t.host = s.host
        ∧ (if n = s.ctr.val then t.phase = .idle ∧ t.ctr = 0 ∧ t.ready = true
           else t.phase = .dec ∧ t.ctr.val = s.ctr.val - n))

/-- spec/44_host_commands.md R134: the command sequence `LDKEY K`, `LDBLK b`, `ENC` (or `DEC`), `RDBLK`, from any state in `IDLE`, appends
exactly the packing of `ENCRYPT(K, b)` (or `DECRYPT(K, b)`) to `OUT`, whatever `KEY` and `W` held. -/
def Obligations.CommandSequenceIsTheSoftwareCall : Prop :=
  ∀ (s : State) (K : Key) (b : Block) (c1 c2 c3 c4 : CmdWord) (rest : List CmdWord), s.released 36 →
    s.phase = .idle → s.call = none → s.host = c1 :: c2 :: c3 :: c4 :: rest →
    decodeCommand c1 = .ok (.ldkey K) → decodeCommand c2 = .ok (.ldblk b) → decodeCommand c4 = .ok .rdblk →
    (decodeCommand c3 = .ok .enc → ∃ t, runSteps 36 s = .next t ∧ t.host = rest
      ∧ t.out = s.out ++ [(encrypt fRom K b).toDout])
    ∧ (decodeCommand c3 = .ok .dec → ∃ t, runSteps 36 s = .next t ∧ t.host = rest
      ∧ t.out = s.out ++ [(decrypt fRom K b).toDout])

/-- R117, the sequential level: under any loaded key `LDBLK b`, `ENC`, `DEC`, `RDBLK` outputs `b`, and so does `LDBLK b`, `DEC`,
`ENC`, `RDBLK`. -/
def Obligations.ChainedTransformsRestoreTheBlock : Prop :=
  ∀ (s : State) (b : Block) (c1 c2 c3 c4 : CmdWord) (rest : List CmdWord), s.released 68 →
    s.phase = .idle → s.call = none → s.kv = true → s.host = c1 :: c2 :: c3 :: c4 :: rest →
    decodeCommand c1 = .ok (.ldblk b) → decodeCommand c4 = .ok .rdblk →
    (decodeCommand c2 = .ok .enc ∧ decodeCommand c3 = .ok .dec
      ∨ decodeCommand c2 = .ok .dec ∧ decodeCommand c3 = .ok .enc) →
    ∃ t, runSteps 68 s = .next t ∧ t.w = b ∧ t.key = s.key ∧ t.out = s.out ++ [b.toDout]

/-! ### Rules of the whole machine -/

/-- spec/10_state.md R21 to R25, R33: over all instructions, which registers each may write. `KEY` and `KV` by `LDKEY` alone; `W` by
`LDBLK` and the stepping rules, `BV` by `LDBLK` alone, and no mark is ever cleared; `CTR` and `PHASE` by `ENC` and `DEC` alone;
`OUT` by `RDBLK` alone. The model's own inputs are written by none, and its `results` (log 5) by the datapath functions. -/
def Obligations.EachRegisterHasItsWriters : Prop :=
  ∀ (i : Instr) (s t : State), exec i s = .next t →
    ((t.key = s.key ∧ t.kv = s.kv) ∨ ∃ k, i = .ldkey k ∧ t.key = k ∧ t.kv = true)
    ∧ ((t.w = s.w ∧ t.bv = s.bv) ∨ (∃ b, i = .ldblk b ∧ t.w = b ∧ t.bv = true)
        ∨ (i.group = .micro ∧ t.bv = s.bv))
    ∧ ((t.ctr = s.ctr ∧ t.phase = s.phase) ∨ i = .enc ∨ i = .dec)
    ∧ (t.out = s.out ∨ (i = .rdblk ∧ t.out = s.out ++ [s.w.toDout]))
    ∧ t.host = s.host ∧ t.rstLine = s.rstLine ∧ t.call = s.call
    ∧ (t.results = s.results ∨ (i.group = .datapath ∧ ∃ v, t.results = s.results ++ [v]))

/-- spec/44_host_commands.md R132, spec/41_g_permutation.md R95: no step makes up an internal call, and the host's words are only ever
consumed from the front, so a machine that starts without a call never evaluates an internal operation for the host; a
call of `G` or `GINV` is no value of the field at all. (The fields are the model's own: log 2, log 3, log 4.) -/
def Obligations.StepsNeverMakeUpInputs : Prop :=
  ∀ s t : State, step s = .next t →
    (s.call = none → t.call = none)
    ∧ (t.host = s.host ∨ ∃ c, s.host = c :: t.host)
    ∧ t.rstLine = s.rstLine.tail

/-- spec/10_state.md R26: what internal operations returned is not stored for anything to read: the model's own `results` (log 5)
has no influence on any step. -/
def Obligations.ResultsAreNeverRead : Prop :=
  ∀ (s : State) (r : List UnitResult),
    mapNext (fun t => { t with results := [] }) (step { s with results := r })
      = mapNext (fun t => { t with results := [] }) (step s)

/-- R25, R31, spec/70_reset_and_hazards.md R160: no run depends on what `KEY` holds while `KV = 0` or on what `W` holds while
`BV = 0`. So no run depends on the contents the model names for reset (log 1), or on what a reset left there. -/
def Obligations.UnwrittenContentsAreUnobservable : Prop :=
  ∀ (n : Nat) (s1 s2 : State), s1.masked = s2.masked →
    mapNext State.masked (runSteps n s1) = mapNext State.masked (runSteps n s2)

/-- spec/60_exceptions.md R142: the situations in which a step has no next state are exactly the three of the rule, and none is
a fault. -/
def Obligations.OnlyTheThreeRefusals : Prop :=
  ∀ s : State, s.Inv → s.call = none → s.released 1 →
    ((∃ r, step s = .refused r) ↔ s.phase = .idle ∧ ∃ c rest, s.host = c :: rest
      ∧ (reservedCommand c
        ∨ ((c.extractLsb' 80 8 = 0x04 ∨ c.extractLsb' 80 8 = 0x05) ∧ (s.kv = false ∨ s.bv = false))
        ∨ (c.extractLsb' 80 8 = 0x03 ∧ s.bv = false)))
    ∧ ∀ f, step s ≠ .fault f

/-- R152: under the launch premises, from any legal state, a run of any length is never refused. -/
def Obligations.LaunchPremisesSuffice : Prop :=
  ∀ (n : Nat) (s : State), s.Inv → s.call = none → s.released n → launchOk s.kv s.bv s.host = true →
    ∃ t, runSteps n s = .next t

/-- spec/30_encoding.md R65, R71: while `PHASE = IDLE` there is no bundle at the G unit, `G` and `GINV` are refused on every
bundle (the refusal's name is the model's, log 9), and no step of such a state evaluates one. -/
def Obligations.BundlesNeedARound : Prop :=
  ∀ s : State, s.phase = .idle →
    s.gop = none
    ∧ (∀ step hi lo, exec (.g step hi lo) s = .refused .noRoundInProgress
      ∧ exec (.ginv step hi lo) s = .refused .noRoundInProgress)
    ∧ ∀ (i : Instr) (t : State), s.fetch = .run i t →
      (∀ step hi lo, i ≠ .g step hi lo) ∧ ∀ step hi lo, i ≠ .ginv step hi lo

/-- spec/41_g_permutation.md R95, spec/30_encoding.md R65: in a `ROUND` step the bundle `gop` is `G` on `W[0]` in `ENC` and `GINV` on
`W[1]` in `DEC`, at `step = CTR - 1`; and the word that `exec` of it returns (recorded in `results`, log 5) is what the step
writes, to word 1 in `ENC` and to word 0 in `DEC`. -/
def Obligations.RoundFeedsTheGUnit : Prop :=
  ∀ s : State, s.released 1 → s.ctr ≠ 0 → s.kv = true → s.bv = true →
    let step5 : Step := BitVec.ofNat 5 (s.ctr.val - 1)
    (s.phase = .enc → ∃ b i v t, s.gop = some b ∧ decode (.gBundle b) = .ok i
      ∧ i = .g step5 (s.w.w0.extractLsb' 8 8) (s.w.w0.extractLsb' 0 8)
      ∧ exec i s = .next { s with results := s.results ++ [.word v] } ∧ step s = .next t ∧ t.w.w1 = v)
    ∧ (s.phase = .dec → ∃ b i v t, s.gop = some b ∧ decode (.gBundle b) = .ok i
      ∧ i = .ginv step5 (s.w.w1.extractLsb' 8 8) (s.w.w1.extractLsb' 0 8)
      ∧ exec i s = .next { s with results := s.results ++ [.word v] } ∧ step s = .next t ∧ t.w.w0 = v)
end

