-- ==== Sys2Proof/Laws/Bits.lean ====
section
/-! SUPPORT. Bit fields of concatenations, and the packings of keys, blocks and command words built from them
(spec/30_encoding.md R61 to R66). -/

namespace Sys2Proof

theorem extract_append_left {n m : Nat} (a : BitVec n) (b : BitVec m) : (a ++ b).extractLsb' m n = a := by
  apply BitVec.eq_of_getLsbD_eq
  intro j hj
  simp [BitVec.getLsbD_append, hj]

theorem extract_append_right {n m : Nat} (a : BitVec n) (b : BitVec m) : (a ++ b).extractLsb' 0 m = b := by
  apply BitVec.eq_of_getLsbD_eq
  intro j hj
  simp [BitVec.getLsbD_append, hj]

/-- A field that lies in the right part. -/
theorem extract_append_of_le {n m k l : Nat} (a : BitVec n) (b : BitVec m) (h : l + k ≤ m) :
    (a ++ b).extractLsb' l k = b.extractLsb' l k := by
  apply BitVec.eq_of_getLsbD_eq
  intro j hj
  have : l + j < m := by omega
  simp [BitVec.getLsbD_append, hj, this]

/-- A field that lies in the left part. -/
theorem extract_append_of_ge {n m k l : Nat} (a : BitVec n) (b : BitVec m) (h : m ≤ l) :
    (a ++ b).extractLsb' l k = a.extractLsb' (l - m) k := by
  apply BitVec.eq_of_getLsbD_eq
  intro j hj
  have : ¬ (l + j < m) := by omega
  simp [BitVec.getLsbD_append, hj, this]
  congr 1
  omega

theorem extract_all {n : Nat} (x : BitVec n) : x.extractLsb' 0 n = x := by
  apply BitVec.eq_of_getLsbD_eq
  intro j hj
  simp [hj]

/-- Two adjacent fields make one. -/
theorem extract_join {n l k m a : Nat} (x : BitVec n) (h : a = l + k) :
    x.extractLsb' a m ++ x.extractLsb' l k = x.extractLsb' l (m + k) := by
  subst h
  apply BitVec.eq_of_getLsbD_eq
  intro j hj
  simp only [BitVec.getLsbD_append, BitVec.getLsbD_extractLsb']
  by_cases h : j < k
  · have : j < m + k := by omega
    simp [h, this]
  · have h1 : j - k < m := by omega
    have h2 : l + k + (j - k) = l + j := by omega
    simp [h, hj, h1, h2]

/-- A field of a field. -/
theorem extract_extract {n l k a b : Nat} (x : BitVec n) (h : a + b ≤ k) :
    (x.extractLsb' l k).extractLsb' a b = x.extractLsb' (l + a) b := by
  apply BitVec.eq_of_getLsbD_eq
  intro j hj
  have : a + j < k := by omega
  simp [hj, this, Nat.add_assoc]

@[simp] theorem CmdWord.mk_op (op : Byte) (arg : Arg) : (CmdWord.mk op arg).op = op :=
  extract_append_left op arg

@[simp] theorem CmdWord.mk_arg (op : Byte) (arg : Arg) : (CmdWord.mk op arg).arg = arg :=
  extract_append_right op arg

/-- A command word is its opcode and its argument. -/
theorem CmdWord.mk_op_arg (c : CmdWord) : CmdWord.mk c.op c.arg = c :=
  (extract_join (l := 0) (k := 80) (m := 8) (a := 80) c rfl).trans (extract_all c)

@[simp] theorem Key.ofArg_toArg (k : Key) : Key.ofArg (Key.toArg k) = k := by
  obtain ⟨⟨l⟩, hl⟩ := k
  match l, hl with
  | [a0, a1, a2, a3, a4, a5, a6, a7, a8, a9], _ =>
    let x : BitVec (8 + 8 + 8 + 8 + 8 + 8 + 8 + 8 + 8 + 8) :=
      a0 ++ a1 ++ a2 ++ a3 ++ a4 ++ a5 ++ a6 ++ a7 ++ a8 ++ a9
    have h : #v[x.extractLsb' 72 8, x.extractLsb' 64 8, x.extractLsb' 56 8, x.extractLsb' 48 8,
        x.extractLsb' 40 8, x.extractLsb' 32 8, x.extractLsb' 24 8, x.extractLsb' 16 8, x.extractLsb' 8 8,
        x.extractLsb' 0 8] = #v[a0, a1, a2, a3, a4, a5, a6, a7, a8, a9] := by
      simp only [x, extract_append_of_ge, extract_append_right, extract_all, Nat.reduceLeDiff, Nat.reduceSub]
    exact h

@[simp] theorem Key.toArg_ofArg (a : Arg) : Key.toArg (Key.ofArg a) = a := by
  have h : a.extractLsb' 72 8 ++ a.extractLsb' 64 8 ++ a.extractLsb' 56 8 ++ a.extractLsb' 48 8
      ++ a.extractLsb' 40 8 ++ a.extractLsb' 32 8 ++ a.extractLsb' 24 8 ++ a.extractLsb' 16 8
      ++ a.extractLsb' 8 8 ++ a.extractLsb' 0 8 = a := by
    rw [extract_join (a := 72) (l := 64) a rfl, extract_join (a := 64) (l := 56) a rfl,
      extract_join (a := 56) (l := 48) a rfl, extract_join (a := 48) (l := 40) a rfl,
      extract_join (a := 40) (l := 32) a rfl, extract_join (a := 32) (l := 24) a rfl,
      extract_join (a := 24) (l := 16) a rfl, extract_join (a := 16) (l := 8) a rfl,
      extract_join (a := 8) (l := 0) a rfl]
    exact extract_all a
  exact h

@[simp] theorem Block.ofDout_toDout (b : Block) : Block.ofDout b.toDout = b := by
  obtain ⟨a0, a1, a2, a3⟩ := b
  let x : BitVec (16 + 16 + 16 + 16) := a0 ++ a1 ++ a2 ++ a3
  have h : (⟨x.extractLsb' 48 16, x.extractLsb' 32 16, x.extractLsb' 16 16, x.extractLsb' 0 16⟩ : Block)
      = ⟨a0, a1, a2, a3⟩ := by
    simp only [x, extract_append_of_ge, extract_append_right, extract_all, Nat.reduceLeDiff, Nat.reduceSub]
  exact h

@[simp] theorem Block.toDout_ofDout (d : Dout) : (Block.ofDout d).toDout = d := by
  have h : d.extractLsb' 48 16 ++ d.extractLsb' 32 16 ++ d.extractLsb' 16 16 ++ d.extractLsb' 0 16 = d := by
    rw [extract_join (a := 48) (l := 32) d rfl, extract_join (a := 32) (l := 16) d rfl,
      extract_join (a := 16) (l := 0) d rfl]
    exact extract_all d
  exact h

end Sys2Proof
end

