-- ==== Sys2Proof/Laws/State.lean ====
section
/-! SUPPORT. What each field is after each named update of the state: one lemma per field and update, so that no
proof unfolds a record update. -/

namespace Sys2Proof.Machine

@[simp] theorem State.loadKey_key (s : State) (k : Key) : (s.loadKey k).key = k := rfl
@[simp] theorem State.loadKey_w (s : State) (k : Key) : (s.loadKey k).w = s.w := rfl
@[simp] theorem State.loadKey_ctr (s : State) (k : Key) : (s.loadKey k).ctr = s.ctr := rfl
@[simp] theorem State.loadKey_phase (s : State) (k : Key) : (s.loadKey k).phase = s.phase := rfl
@[simp] theorem State.loadKey_kv (s : State) (k : Key) : (s.loadKey k).kv = true := rfl
@[simp] theorem State.loadKey_bv (s : State) (k : Key) : (s.loadKey k).bv = s.bv := rfl
@[simp] theorem State.loadKey_out (s : State) (k : Key) : (s.loadKey k).out = s.out := rfl
@[simp] theorem State.loadKey_host (s : State) (k : Key) : (s.loadKey k).host = s.host := rfl
@[simp] theorem State.loadKey_rstLine (s : State) (k : Key) : (s.loadKey k).rstLine = s.rstLine := rfl
@[simp] theorem State.loadKey_call (s : State) (k : Key) : (s.loadKey k).call = s.call := rfl
@[simp] theorem State.loadKey_results (s : State) (k : Key) : (s.loadKey k).results = s.results := rfl

@[simp] theorem State.loadBlock_key (s : State) (b : Block) : (s.loadBlock b).key = s.key := rfl
@[simp] theorem State.loadBlock_w (s : State) (b : Block) : (s.loadBlock b).w = b := rfl
@[simp] theorem State.loadBlock_ctr (s : State) (b : Block) : (s.loadBlock b).ctr = s.ctr := rfl
@[simp] theorem State.loadBlock_phase (s : State) (b : Block) : (s.loadBlock b).phase = s.phase := rfl
@[simp] theorem State.loadBlock_kv (s : State) (b : Block) : (s.loadBlock b).kv = s.kv := rfl
@[simp] theorem State.loadBlock_bv (s : State) (b : Block) : (s.loadBlock b).bv = true := rfl
@[simp] theorem State.loadBlock_out (s : State) (b : Block) : (s.loadBlock b).out = s.out := rfl
@[simp] theorem State.loadBlock_host (s : State) (b : Block) : (s.loadBlock b).host = s.host := rfl
@[simp] theorem State.loadBlock_rstLine (s : State) (b : Block) : (s.loadBlock b).rstLine = s.rstLine := rfl
@[simp] theorem State.loadBlock_call (s : State) (b : Block) : (s.loadBlock b).call = s.call := rfl
@[simp] theorem State.loadBlock_results (s : State) (b : Block) : (s.loadBlock b).results = s.results := rfl

@[simp] theorem State.putBlock_key (s : State) (b : Block) : (s.putBlock b).key = s.key := rfl
@[simp] theorem State.putBlock_w (s : State) (b : Block) : (s.putBlock b).w = b := rfl
@[simp] theorem State.putBlock_ctr (s : State) (b : Block) : (s.putBlock b).ctr = s.ctr := rfl
@[simp] theorem State.putBlock_phase (s : State) (b : Block) : (s.putBlock b).phase = s.phase := rfl
@[simp] theorem State.putBlock_kv (s : State) (b : Block) : (s.putBlock b).kv = s.kv := rfl
@[simp] theorem State.putBlock_bv (s : State) (b : Block) : (s.putBlock b).bv = s.bv := rfl
@[simp] theorem State.putBlock_out (s : State) (b : Block) : (s.putBlock b).out = s.out := rfl
@[simp] theorem State.putBlock_host (s : State) (b : Block) : (s.putBlock b).host = s.host := rfl
@[simp] theorem State.putBlock_rstLine (s : State) (b : Block) : (s.putBlock b).rstLine = s.rstLine := rfl
@[simp] theorem State.putBlock_call (s : State) (b : Block) : (s.putBlock b).call = s.call := rfl
@[simp] theorem State.putBlock_results (s : State) (b : Block) : (s.putBlock b).results = s.results := rfl

@[simp] theorem State.emit_key (s : State) (v : Dout) : (s.emit v).key = s.key := rfl
@[simp] theorem State.emit_w (s : State) (v : Dout) : (s.emit v).w = s.w := rfl
@[simp] theorem State.emit_ctr (s : State) (v : Dout) : (s.emit v).ctr = s.ctr := rfl
@[simp] theorem State.emit_phase (s : State) (v : Dout) : (s.emit v).phase = s.phase := rfl
@[simp] theorem State.emit_kv (s : State) (v : Dout) : (s.emit v).kv = s.kv := rfl
@[simp] theorem State.emit_bv (s : State) (v : Dout) : (s.emit v).bv = s.bv := rfl
@[simp] theorem State.emit_out (s : State) (v : Dout) : (s.emit v).out = s.out ++ [v] := rfl
@[simp] theorem State.emit_host (s : State) (v : Dout) : (s.emit v).host = s.host := rfl
@[simp] theorem State.emit_rstLine (s : State) (v : Dout) : (s.emit v).rstLine = s.rstLine := rfl
@[simp] theorem State.emit_call (s : State) (v : Dout) : (s.emit v).call = s.call := rfl
@[simp] theorem State.emit_results (s : State) (v : Dout) : (s.emit v).results = s.results := rfl

@[simp] theorem State.start_key (s : State) (p : Phase) (c : Counter) : (s.start p c).key = s.key := rfl
@[simp] theorem State.start_w (s : State) (p : Phase) (c : Counter) : (s.start p c).w = s.w := rfl
@[simp] theorem State.start_ctr (s : State) (p : Phase) (c : Counter) : (s.start p c).ctr = c := rfl
@[simp] theorem State.start_phase (s : State) (p : Phase) (c : Counter) : (s.start p c).phase = p := rfl
@[simp] theorem State.start_kv (s : State) (p : Phase) (c : Counter) : (s.start p c).kv = s.kv := rfl
@[simp] theorem State.start_bv (s : State) (p : Phase) (c : Counter) : (s.start p c).bv = s.bv := rfl
@[simp] theorem State.start_out (s : State) (p : Phase) (c : Counter) : (s.start p c).out = s.out := rfl
@[simp] theorem State.start_host (s : State) (p : Phase) (c : Counter) : (s.start p c).host = s.host := rfl
@[simp] theorem State.start_rstLine (s : State) (p : Phase) (c : Counter) : (s.start p c).rstLine = s.rstLine := rfl
@[simp] theorem State.start_call (s : State) (p : Phase) (c : Counter) : (s.start p c).call = s.call := rfl
@[simp] theorem State.start_results (s : State) (p : Phase) (c : Counter) : (s.start p c).results = s.results := rfl

@[simp] theorem State.record_key (s : State) (v : UnitResult) : (s.record v).key = s.key := rfl
@[simp] theorem State.record_w (s : State) (v : UnitResult) : (s.record v).w = s.w := rfl
@[simp] theorem State.record_ctr (s : State) (v : UnitResult) : (s.record v).ctr = s.ctr := rfl
@[simp] theorem State.record_phase (s : State) (v : UnitResult) : (s.record v).phase = s.phase := rfl
@[simp] theorem State.record_kv (s : State) (v : UnitResult) : (s.record v).kv = s.kv := rfl
@[simp] theorem State.record_bv (s : State) (v : UnitResult) : (s.record v).bv = s.bv := rfl
@[simp] theorem State.record_out (s : State) (v : UnitResult) : (s.record v).out = s.out := rfl
@[simp] theorem State.record_host (s : State) (v : UnitResult) : (s.record v).host = s.host := rfl
@[simp] theorem State.record_rstLine (s : State) (v : UnitResult) : (s.record v).rstLine = s.rstLine := rfl
@[simp] theorem State.record_call (s : State) (v : UnitResult) : (s.record v).call = s.call := rfl
@[simp] theorem State.record_results (s : State) (v : UnitResult) : (s.record v).results = s.results ++ [v] := rfl

@[simp] theorem State.applyReset_key (s : State) : s.applyReset.key = Config.resetKey := rfl
@[simp] theorem State.applyReset_w (s : State) : s.applyReset.w = Config.resetBlock := rfl
@[simp] theorem State.applyReset_ctr (s : State) : s.applyReset.ctr = 0 := rfl
@[simp] theorem State.applyReset_phase (s : State) : s.applyReset.phase = .idle := rfl
@[simp] theorem State.applyReset_kv (s : State) : s.applyReset.kv = false := rfl
@[simp] theorem State.applyReset_bv (s : State) : s.applyReset.bv = false := rfl
@[simp] theorem State.applyReset_out (s : State) : s.applyReset.out = [] := rfl
@[simp] theorem State.applyReset_host (s : State) : s.applyReset.host = s.host := rfl
@[simp] theorem State.applyReset_rstLine (s : State) : s.applyReset.rstLine = s.rstLine := rfl
@[simp] theorem State.applyReset_call (s : State) : s.applyReset.call = none := rfl
@[simp] theorem State.applyReset_results (s : State) : s.applyReset.results = [] := rfl

/-- `ready` is the level of `PHASE = IDLE` (spec/10_state.md R28). -/
@[simp] theorem State.ready_iff (s : State) : s.ready = true ↔ s.phase = .idle := by
  simp [State.ready]

/-! The wires of a round: none in `IDLE`, and in a round those of its direction. -/

theorem State.rsel_of_idle {s : State} (h : s.phase = .idle) : s.rsel = none := by simp [State.rsel, h, Phase.direction]

theorem State.rsel_of_enc {s : State} (h : s.phase = .enc) : s.rsel = some (0#1 ++ s.step.extractLsb' 3 1) := by
  simp [State.rsel, h, Phase.direction, Direction.decBit]

theorem State.rsel_of_dec {s : State} (h : s.phase = .dec) : s.rsel = some (1#1 ++ s.step.extractLsb' 3 1) := by
  simp [State.rsel, h, Phase.direction, Direction.decBit]

theorem State.gop_of_idle {s : State} (h : s.phase = .idle) : s.gop = none := by simp [State.gop, h, Phase.direction]

theorem State.gop_of_enc {s : State} (h : s.phase = .enc) :
    s.gop = some (gBundle 0 s.step (wordToBytes s.w.w0).1 (wordToBytes s.w.w0).2) := by
  simp [State.gop, h, Phase.direction, Direction.decBit, Direction.gInput]

theorem State.gop_of_dec {s : State} (h : s.phase = .dec) :
    s.gop = some (gBundle 1 s.step (wordToBytes s.w.w1).1 (wordToBytes s.w.w1).2) := by
  simp [State.gop, h, Phase.direction, Direction.decBit, Direction.gInput]

/-- There is a select exactly in a round. -/
theorem State.exists_rsel_iff (s : State) : (∃ r, s.rsel = some r) ↔ s.phase ≠ .idle := by
  cases h : s.phase with
  | idle => simp [State.rsel_of_idle h]
  | enc => simp [State.rsel_of_enc h]
  | dec => simp [State.rsel_of_dec h]

end Sys2Proof.Machine
end

