-- ==== Sys2Proof/Laws/Ops.lean ====
section
/-! SUPPORT. What the guards of the operations can answer, said once, and what each instruction needs and writes
when it answers a next state. -/

namespace Sys2Proof.Machine

theorem State.whenReady_eq_next {s t : State} {o : Result} (h : s.whenReady o = .next t) :
    s.phase = .idle ∧ o = .next t := by
  unfold State.whenReady at h; split at h <;> simp_all

theorem State.whenKey_eq_next {s t : State} {o : Result} (h : s.whenKey o = .next t) :
    s.kv = true ∧ o = .next t := by
  unfold State.whenKey at h; split at h <;> simp_all

theorem State.whenBlock_eq_next {s t : State} {o : Result} (h : s.whenBlock o = .next t) :
    s.bv = true ∧ o = .next t := by
  unfold State.whenBlock at h; split at h <;> simp_all

theorem State.whenRound_eq_next {s t : State} {o : Result} (h : s.whenRound o = .next t) :
    (s.phase ≠ .idle ∧ s.ctr ≠ 0) ∧ o = .next t := by
  unfold State.whenRound at h; split at h <;> simp_all

theorem State.whenReady_of_idle {s : State} (h : s.phase = .idle) (o : Result) : s.whenReady o = o := by
  simp [State.whenReady, h]

theorem State.whenKey_of_loaded {s : State} (h : s.kv = true) (o : Result) : s.whenKey o = o := by
  simp [State.whenKey, h]

theorem State.whenBlock_of_loaded {s : State} (h : s.bv = true) (o : Result) : s.whenBlock o = o := by
  simp [State.whenBlock, h]

theorem State.whenRound_of_round {s : State} (h : s.phase ≠ .idle) (hc : s.ctr ≠ 0) (o : Result) :
    s.whenRound o = o := by
  simp [State.whenRound, h, hc]

/-- In a round the step is the counter less one (spec/43_engine.md R111). -/
theorem stepOf_of_ne_zero {c : Counter} (h : c ≠ 0) : stepOf c = BitVec.ofNat 5 (c.val - 1) := if_neg h

/-- A stepping rule that answers a next state was in a round with both marks set, and wrote `W` alone. -/
theorem State.applyRule_eq_next {s t : State} {rule : Key → Block → Counter → Block}
    (h : s.applyRule rule = .next t) :
    s.phase ≠ .idle ∧ s.ctr ≠ 0 ∧ s.kv = true ∧ s.bv = true ∧ t = s.putBlock (rule s.key s.w s.ctr) := by
  obtain ⟨⟨hp, hc⟩, h⟩ := State.whenRound_eq_next h
  obtain ⟨hk, h⟩ := State.whenKey_eq_next h
  obtain ⟨hb, h⟩ := State.whenBlock_eq_next h
  injection h with h
  exact ⟨hp, hc, hk, hb, h.symm⟩

/-- In a round with both marks set a stepping rule answers. -/
theorem State.applyRule_of_round {s : State} (rule : Key → Block → Counter → Block) (hp : s.phase ≠ .idle)
    (hc : s.ctr ≠ 0) (hk : s.kv = true) (hb : s.bv = true) :
    s.applyRule rule = .next (s.putBlock (rule s.key s.w s.ctr)) := by
  simp [State.applyRule, State.whenRound_of_round hp hc, State.whenKey_of_loaded hk, State.whenBlock_of_loaded hb]

/-- Everything an instruction can do: each answers a next state only under its preconditions, and then the
state is the old one with the one named update of that instruction. -/
theorem exec_cases {i : Instr} {s t : State} (h : exec i s = .next t) :
    (∃ k, i = .ldkey k ∧ s.phase = .idle ∧ t = s.loadKey k)
    ∨ (∃ b, i = .ldblk b ∧ s.phase = .idle ∧ t = s.loadBlock b)
    ∨ (i = .rdblk ∧ s.phase = .idle ∧ s.bv = true ∧ t = s.emit s.w.toDout)
    ∨ ((i = .enc ∧ t = s.start .enc 1 ∨ i = .dec ∧ t = s.start .dec 32)
        ∧ s.phase = .idle ∧ s.kv = true ∧ s.bv = true)
    ∨ ((∃ b, t = s.putBlock b) ∧ i.group = .micro
        ∧ s.phase ≠ .idle ∧ s.ctr ≠ 0 ∧ s.kv = true ∧ s.bv = true)
    ∨ ((∃ v, t = s.record v) ∧ i.group = .datapath) := by
  cases i with
  | ldkey k =>
    obtain ⟨hp, h⟩ := State.whenReady_eq_next h
    injection h with h; exact .inl ⟨k, rfl, hp, h.symm⟩
  | ldblk b =>
    obtain ⟨hp, h⟩ := State.whenReady_eq_next h
    injection h with h; exact .inr (.inl ⟨b, rfl, hp, h.symm⟩)
  | rdblk =>
    obtain ⟨hp, h⟩ := State.whenReady_eq_next h
    obtain ⟨hb, h⟩ := State.whenBlock_eq_next h
    injection h with h; exact .inr (.inr (.inl ⟨rfl, hp, hb, h.symm⟩))
  | enc =>
    obtain ⟨hp, h⟩ := State.whenReady_eq_next h
    obtain ⟨hk, h⟩ := State.whenKey_eq_next h
    obtain ⟨hb, h⟩ := State.whenBlock_eq_next h
    injection h with h; exact .inr (.inr (.inr (.inl ⟨.inl ⟨rfl, h.symm⟩, hp, hk, hb⟩)))
  | dec =>
    obtain ⟨hp, h⟩ := State.whenReady_eq_next h
    obtain ⟨hk, h⟩ := State.whenKey_eq_next h
    obtain ⟨hb, h⟩ := State.whenBlock_eq_next h
    injection h with h; exact .inr (.inr (.inr (.inl ⟨.inr ⟨rfl, h.symm⟩, hp, hk, hb⟩)))
  | stepA =>
    obtain ⟨hp, hc, hk, hb, h⟩ := State.applyRule_eq_next h
    exact .inr (.inr (.inr (.inr (.inl ⟨⟨_, h⟩, rfl, hp, hc, hk, hb⟩))))
  | stepB =>
    obtain ⟨hp, hc, hk, hb, h⟩ := State.applyRule_eq_next h
    exact .inr (.inr (.inr (.inr (.inl ⟨⟨_, h⟩, rfl, hp, hc, hk, hb⟩))))
  | stepAinv =>
    obtain ⟨hp, hc, hk, hb, h⟩ := State.applyRule_eq_next h
    exact .inr (.inr (.inr (.inr (.inl ⟨⟨_, h⟩, rfl, hp, hc, hk, hb⟩))))
  | stepBinv =>
    obtain ⟨hp, hc, hk, hb, h⟩ := State.applyRule_eq_next h
    exact .inr (.inr (.inr (.inr (.inl ⟨⟨_, h⟩, rfl, hp, hc, hk, hb⟩))))
  | g step hi lo =>
    obtain ⟨_, h⟩ := State.whenRound_eq_next h
    obtain ⟨_, h⟩ := State.whenKey_eq_next h
    injection h with h; exact .inr (.inr (.inr (.inr (.inr ⟨⟨_, h.symm⟩, rfl⟩))))
  | ginv step hi lo =>
    obtain ⟨_, h⟩ := State.whenRound_eq_next h
    obtain ⟨_, h⟩ := State.whenKey_eq_next h
    injection h with h; exact .inr (.inr (.inr (.inr (.inr ⟨⟨_, h.symm⟩, rfl⟩))))
  | w2b w => injection h with h; exact .inr (.inr (.inr (.inr (.inr ⟨⟨_, h.symm⟩, rfl⟩))))
  | b2w hi lo => injection h with h; exact .inr (.inr (.inr (.inr (.inr ⟨⟨_, h.symm⟩, rfl⟩))))
  | flookup a => injection h with h; exact .inr (.inr (.inr (.inr (.inr ⟨⟨_, h.symm⟩, rfl⟩))))
  | keysel step n => injection h with h; exact .inr (.inr (.inr (.inr (.inr ⟨⟨_, h.symm⟩, rfl⟩))))

end Sys2Proof.Machine
end

