-- ==== Sys2Proof/Laws/PerInstr.lean ====
section
/-! SUPPORT. The family Encoding: the raw word an instruction is encoded as is well-formed, that is, no reserved
encoding. -/

namespace Sys2Proof.Laws.Encoding

/-- The encoded word of `i` is well-formed (spec/30_encoding.md R61 to R66, R70). -/
abbrev Statement (i : Instr) : Prop := (encode i).wellFormed = true

theorem ldkey (k : Key) : Statement (.ldkey k) := by
  have h : (CmdWord.mk 0x01 (Key.toArg k)).extractLsb' 80 8 = 0x01 := CmdWord.mk_op 0x01 _
  simp only [Statement, encode, RawWord.wellFormed, CmdWord.wellFormed, h]
  rfl

theorem ldblk (b : Block) : Statement (.ldblk b) := by
  have h : (CmdWord.mk 0x02 ((0 : BitVec 16) ++ b.toDout)).extractLsb' 80 8 = 0x02 := CmdWord.mk_op 0x02 _
  have hz : (CmdWord.mk 0x02 ((0 : BitVec 16) ++ b.toDout)).extractLsb' 64 16 = 0 :=
    (extract_append_of_le (0x02 : Byte) (((0 : BitVec 16) ++ b.toDout : BitVec (16 + 64))) (by decide)).trans
      (extract_append_left _ _)
  simp only [Statement, encode, RawWord.wellFormed, CmdWord.wellFormed, h, hz]
  rfl

theorem rdblk : Statement .rdblk := by decide

theorem enc : Statement .enc := by decide

theorem dec : Statement .dec := by decide

theorem stepA : Statement .stepA := by decide

theorem stepB : Statement .stepB := by decide

theorem stepAinv : Statement .stepAinv := by decide

theorem stepBinv : Statement .stepBinv := by decide

theorem g (step : Step) (hi lo : Byte) : Statement (.g step hi lo) := rfl

theorem ginv (step : Step) (hi lo : Byte) : Statement (.ginv step hi lo) := rfl

theorem w2b (w : Word) : Statement (.w2b w) := rfl

theorem b2w (hi lo : Byte) : Statement (.b2w hi lo) := rfl

theorem flookup (a : Byte) : Statement (.flookup a) := rfl

theorem keysel (step : Step) (i : Stage) : Statement (.keysel step i) := rfl

end Sys2Proof.Laws.Encoding
end

