-- ==== Sys2Proof/Laws/Step.lean ====
section
/-! SUPPORT. What the fetch gives in each case, and runs of the step. -/

namespace Sys2Proof.Machine

/-- With the reset line released the action is that of the state one level later on the line. -/
theorem State.fetch_released {s : State} (h : s.released 1) :
    s.fetch = ({ s with rstLine := s.rstLine.tail } : State).fetchReleased := by
  unfold State.fetch
  cases hl : s.rstLine with
  | nil => rfl
  | cons b rest =>
    cases b with
    | false => rfl
    | true => simp [State.released, hl] at h

/-- While a round is in progress the action is the round `rsel` selects. -/
theorem State.fetchReleased_busy {s : State} {r : BitVec 2} (h : s.rsel = some r) :
    s.fetchReleased = .round (decodeRoundSelect r) s := by
  simp [State.fetchReleased, h]

/-- In `IDLE` without an internal call the action is the command the host presents. -/
theorem State.fetchReleased_command {s : State} (hp : s.phase = .idle) (hc : s.call = none) {c : CmdWord}
    {rest : List CmdWord} (hh : s.host = c :: rest) :
    s.fetchReleased = fetchCommand c { s with host := rest } := by
  simp [State.fetchReleased, State.rsel_of_idle hp, hc, hh]

/-- In `IDLE` an internal call is evaluated before the host's word is looked at. -/
theorem State.fetchReleased_call {s : State} (hp : s.phase = .idle) {u : UnitCall} (hc : s.call = some u) :
    s.fetchReleased = .run (decodeUnitCall u) { s with call := none } := by
  simp [State.fetchReleased, State.rsel_of_idle hp, hc]

/-- In `IDLE` with nothing presented the state holds. -/
theorem State.fetchReleased_nothing {s : State} (hp : s.phase = .idle) (hc : s.call = none) (hh : s.host = []) :
    s.fetchReleased = .hold s := by
  simp [State.fetchReleased, State.rsel_of_idle hp, hc, hh]

/-- A command word's action is a run of what it decodes to. -/
theorem fetchCommand_of_decode {c : CmdWord} {i : Instr} (h : decodeCommand c = .ok i) (t : State) :
    fetchCommand c t = .run i t := by
  simp [fetchCommand, h]

/-- While reset is asserted (spec/60_exceptions.md R144). -/
theorem step_reset {s : State} {rest : List Bool} (h : s.rstLine = true :: rest) :
    step s = .next ({ s with rstLine := rest } : State).applyReset := by
  unfold step State.fetch
  rw [h]
  rfl

/-- A round in progress: the micro-operation, then the advance (spec/43_engine.md R114). -/
theorem step_busy {s : State} (h : s.released 1) {r : BitVec 2} (hr : s.rsel = some r) :
    step s = mapNext State.advance (exec (decodeRoundSelect r) { s with rstLine := s.rstLine.tail }) := by
  have hf : s.fetch = .round (decodeRoundSelect r) { s with rstLine := s.rstLine.tail } := by
    rw [State.fetch_released h]
    exact State.fetchReleased_busy (s := { s with rstLine := s.rstLine.tail }) hr
  rw [step, hf, carryOut]
  cases exec (decodeRoundSelect r) { s with rstLine := s.rstLine.tail } <;> rfl

/-- A command at the port in `IDLE` (spec/44_host_commands.md R125). -/
theorem step_command {s : State} (h : s.released 1) (hp : s.phase = .idle) (hc : s.call = none) {c : CmdWord}
    {rest : List CmdWord} (hh : s.host = c :: rest) :
    step s = (match decodeCommand c with
      | .ok i => exec i { s with rstLine := s.rstLine.tail, host := rest }
      | .error e => .refused (.reservedEncoding e)) := by
  have hf : s.fetch = fetchCommand c { s with rstLine := s.rstLine.tail, host := rest } := by
    rw [State.fetch_released h]
    exact State.fetchReleased_command (s := { s with rstLine := s.rstLine.tail }) hp hc hh
  rw [step, hf, fetchCommand]
  cases decodeCommand c <;> rfl

/-- An internal call in `IDLE` (log 4). -/
theorem step_call {s : State} (h : s.released 1) (hp : s.phase = .idle) {u : UnitCall} (hc : s.call = some u) :
    step s = exec (decodeUnitCall u) { s with rstLine := s.rstLine.tail, call := none } := by
  have hf : s.fetch = .run (decodeUnitCall u) { s with rstLine := s.rstLine.tail, call := none } := by
    rw [State.fetch_released h]
    exact State.fetchReleased_call (s := { s with rstLine := s.rstLine.tail }) hp hc
  rw [step, hf, carryOut]

/-- `IDLE` with nothing presented (spec/60_exceptions.md R151). -/
theorem step_idle {s : State} (h : s.released 1) (hp : s.phase = .idle) (hc : s.call = none) (hh : s.host = []) :
    step s = .next { s with rstLine := s.rstLine.tail } := by
  have hf : s.fetch = .hold { s with rstLine := s.rstLine.tail } := by
    rw [State.fetch_released h]
    exact State.fetchReleased_nothing (s := { s with rstLine := s.rstLine.tail }) hp hc hh
  rw [step, hf, carryOut]

/-- Released for `m + n` steps is released for `m`. -/
theorem State.released_of_add {s : State} {m n : Nat} (h : s.released (m + n)) : s.released m := fun b hb =>
  h b (List.IsPrefix.subset (List.take_prefix_take_left (Nat.le_add_right m n)) hb)

/-- Released for `n + 1` steps is released for the next one, and then for `n`. -/
theorem State.released_tail {s : State} {n : Nat} (h : s.released (n + 1)) :
    ∀ b ∈ s.rstLine.tail.take n, b = false := by
  intro b hb
  refine h b ?_
  cases hl : s.rstLine with
  | nil => simp [hl] at hb
  | cons a rest => rw [hl] at hb; simpa using .inr (by simpa using hb)

/-- Runs compose. -/
theorem runSteps_add (m n : Nat) (s : State) :
    runSteps (m + n) s = (match runSteps m s with
      | .next t => runSteps n t
      | .fault f => .fault f
      | .refused r => .refused r) := by
  induction m generalizing s with
  | zero => simp [runSteps]
  | succ m ih =>
    rw [Nat.succ_add]
    simp only [runSteps]
    cases step s with
    | next t => exact ih t
    | fault f => rfl
    | refused r => rfl

/-- A run is the host interface's run. -/
theorem runSteps_eq_core_run (n : Nat) (s : State) : runSteps n s = Host.Core.run Sys2Proof.core n s := by
  induction n generalizing s with
  | zero => rfl
  | succ n ih =>
    cases hs : step s with
    | next t =>
      have hc : Sys2Proof.core.step s = .next t := hs
      simp only [runSteps, Host.Core.run, hs, hc]
      exact ih t
    | fault f =>
      have hc : Sys2Proof.core.step s = .fault f := hs
      simp only [runSteps, Host.Core.run, hs, hc]
      rfl
    | refused r =>
      have hc : Sys2Proof.core.step s = .refused r := hs
      simp only [runSteps, Host.Core.run, hs, hc]
      rfl

end Sys2Proof.Machine
end

