-- ==== Sys2Proof/Machine/Asm.lean ====
section
/-! DEFINITION. The text of a program, read into the command words a host presents: one line per command, fields
separated by spaces, numbers in hex without prefix, `;` starting a comment, no labels, no branches, no loops
(spec/30_encoding.md R73), and the pseudo-instructions of R74. What R73 leaves open of a text is in log 18. -/

namespace Sys2Proof.Machine

/-- The value of a hex digit, in either case (log 18). -/
def hexDigit (c : Char) : Option Nat :=
  let n := c.toNat
  if 48 ≤ n ∧ n ≤ 57 then some (n - 48)
  else if 97 ≤ n ∧ n ≤ 102 then some (n - 87)
  else if 65 ≤ n ∧ n ≤ 70 then some (n - 55)
  else none

/-- The value of a string of hex digits, the first the most significant. -/
def hexValue : Nat → List Char → Option Nat
  | v, [] => some v
  | v, c :: rest =>
    match hexDigit c with
    | some d => hexValue (16 * v + d) rest
    | none => none

/-- A field of exactly `digits` hex digits (R73: two for a byte, four for a word). -/
def hexField (digits : Nat) (f : List Char) : Option Nat :=
  if f.length = digits then hexValue 0 f else none

/-- Every field of a list, or none. -/
def hexFields (digits : Nat) : List (List Char) → Option (List Nat)
  | [] => some []
  | f :: rest =>
    match hexField digits f, hexFields digits rest with
    | some v, some vs => some (v :: vs)
    | _, _ => none

/-- Ten bytes of two digits, `KEY[0]` first (R73). -/
def keyFields (fs : List (List Char)) : Option Key :=
  match hexFields 2 fs with
  | some [k0, k1, k2, k3, k4, k5, k6, k7, k8, k9] => some (#v[k0, k1, k2, k3, k4, k5, k6, k7, k8, k9].map (BitVec.ofNat 8))
  | _ => none

/-- Four words of four digits, `W[0]` first (R73). -/
def blockFields (fs : List (List Char)) : Option Block :=
  match hexFields 4 fs with
  | some [w0, w1, w2, w3] => some ⟨BitVec.ofNat 16 w0, BitVec.ofNat 16 w1, BitVec.ofNat 16 w2, BitVec.ofNat 16 w3⟩
  | _ => none

/-- The pieces of a text between separators; there is always at least one. -/
def splitAtChar (sep : Char) : List Char → List (List Char)
  | [] => [[]]
  | c :: rest =>
    match splitAtChar sep rest with
    | [] => [[c]]
    | f :: fs => if c = sep then [] :: f :: fs else (c :: f) :: fs

/-- The fields of a line: its comment cut off, then the non-empty pieces between spaces (R73). -/
def lineFields (line : List Char) : List (List Char) :=
  (splitAtChar ' ' (line.takeWhile (fun c => c != ';'))).filter (fun f => f.length != 0)

/-- The commands of one line; an empty line or a comment has none, and a line of no such form is no program
text (R73, R74). -/
def readLine (line : List Char) : Option (List Instr) :=
  match lineFields line with
  | [] => some []
  | name :: fs =>
    if name = ['L', 'D', 'K', 'E', 'Y'] then (keyFields fs).map (fun k => [.ldkey k])
    else if name = ['L', 'D', 'B', 'L', 'K'] then (blockFields fs).map (fun b => [.ldblk b])
    else if name = ['R', 'D', 'B', 'L', 'K'] then if fs = [] then some [.rdblk] else none
    else if name = ['E', 'N', 'C'] then if fs = [] then some [.enc] else none
    else if name = ['D', 'E', 'C'] then if fs = [] then some [.dec] else none
    else if name = ['C', 'O', 'N', 'S', 'T', 'R', 'U', 'C', 'T'] then
      (keyFields fs).map (fun k => (Pseudo.construct k).expand)
    else if name = ['E', 'N', 'C', 'R', 'Y', 'P', 'T'] then
      (blockFields fs).map (fun b => (Pseudo.encrypt b).expand)
    else if name = ['D', 'E', 'C', 'R', 'Y', 'P', 'T'] then
      (blockFields fs).map (fun b => (Pseudo.decrypt b).expand)
    else none

/-- The commands of a list of lines, in order. -/
def readLines : List (List Char) → Option (List Instr)
  | [] => some []
  | line :: rest =>
    match readLine line, readLines rest with
    | some is, some js => some (is ++ js)
    | _, _ => none

/-- The word at the command port for a host command; the other operations have none
(spec/30_encoding.md R60). -/
def portWord (i : Instr) : Option CmdWord :=
  match encode i with
  | .command c => some c
  | .roundSelect _ => none
  | .gBundle _ => none
  | .unitCall _ => none

/-- A program text as the words its host presents, in order (R73). -/
def assemble (text : List Char) : Option (List CmdWord) :=
  (readLines (splitAtChar '\n' text)).map (fun is => is.filterMap portWord)

end Sys2Proof.Machine
end

