-- ==== Sys2Proof/Tests/Slice0.lean ====
section
/-! SUPPORT. The model's own tests: encodings, the checks of well-formedness, one step or one function value each with
the expected value taken from spec/ (spec/95_test_vectors.md unless said otherwise), and for every statement with
hypotheses a concrete state and operands that meet them. -/

namespace Sys2Proof.Tests

-- One test at a time: each evaluation on a thread of its own would reserve a stack of its own.
set_option Elab.async false

open Sys2Proof.Machine

/-- The source's key (95 section 1.1). -/
def srcKey : Key := #v[0x00, 0x99, 0x88, 0x77, 0x66, 0x55, 0x44, 0x33, 0x22, 0x11]

/-- The source's plaintext block (95 section 1.1). -/
def plain : Block := ⟨0x3322, 0x1100, 0xddcc, 0xbbaa⟩

/-- The source's ciphertext block (95 section 1.1). -/
def cipher : Block := ⟨0x2587, 0xcae2, 0x7a12, 0xd300⟩

/-- The block of 95 section 4.5. -/
def small : Block := ⟨0x0001, 0x0002, 0x0003, 0x0004⟩

/-- `IDLE`, with the source's key and plaintext loaded. -/
def loaded : State := { State.reset with key := srcKey, w := plain, kv := true, bv := true }

/-- `loaded`, with the host presenting words. -/
def presenting (ws : List CmdWord) : State := { loaded with host := ws }

/-- A round in progress, with the source's key and the block of 95 section 4.5. -/
def inRound (p : Phase) (c : Counter) : State := { loaded with phase := p, ctr := c, w := small }

/-- The next state, if there is one. -/
def nextOf : Result → Option State
  | .next t => some t
  | .fault _ => none
  | .refused _ => none

/-- The reason of a refusal, if there is one. -/
def refusalOf : Result → Option Refusal
  | .next _ => none
  | .fault _ => none
  | .refused r => some r

/-- The command words of the programs in 95 section 5. -/
def wLdkey : CmdWord := 0x0100998877665544332211
def wLdblk : CmdWord := 0x02000033221100ddccbbaa
def wRdblk : CmdWord := 0x0300000000000000000000
def wEnc : CmdWord := 0x0400000000000000000000
def wDec : CmdWord := 0x0500000000000000000000

/-! ### Decoding: words written out from the bit-position tables of spec/30_encoding.md -/

/-- R61, R62: `op`, then `KEY[0]` to `KEY[9]`. -/
theorem test_decode_ldkey : decode (.command
    (0b00000001#8 ++ 0x00#8 ++ 0x99#8 ++ 0x88#8 ++ 0x77#8 ++ 0x66#8 ++ 0x55#8 ++ 0x44#8 ++ 0x33#8 ++ 0x22#8 ++ 0x11#8))
      = .ok (.ldkey srcKey) := by decide

/-- R61, R63: `op`, sixteen zeros, then `W[0]` to `W[3]`. -/
theorem test_decode_ldblk : decode (.command
    (0b00000010#8 ++ 0x0000#16 ++ 0x3322#16 ++ 0x1100#16 ++ 0xddcc#16 ++ 0xbbaa#16)) = .ok (.ldblk plain) := by decide

theorem test_decode_rdblk : decode (.command (0b00000011#8 ++ 0#80)) = .ok .rdblk := by decide
theorem test_decode_enc : decode (.command (0b00000100#8 ++ 0#80)) = .ok .enc := by decide
theorem test_decode_dec : decode (.command (0b00000101#8 ++ 0#80)) = .ok .dec := by decide

/-- R64: `rsel[1] = dec`, `rsel[0] = bsel`. -/
theorem test_decode_stepA : decode (.roundSelect (0b0#1 ++ 0b0#1)) = .ok .stepA := by decide
theorem test_decode_stepB : decode (.roundSelect (0b0#1 ++ 0b1#1)) = .ok .stepB := by decide
theorem test_decode_stepAinv : decode (.roundSelect (0b1#1 ++ 0b0#1)) = .ok .stepAinv := by decide
theorem test_decode_stepBinv : decode (.roundSelect (0b1#1 ++ 0b1#1)) = .ok .stepBinv := by decide

/-- R65: `inv`, `step`, high byte, low byte. -/
theorem test_decode_g :
    decode (.gBundle (0b0#1 ++ 0b11111#5 ++ 0b00010010#8 ++ 0b00110100#8)) = .ok (.g 31 0x12 0x34) := by decide
theorem test_decode_ginv :
    decode (.gBundle (0b1#1 ++ 0b00000#5 ++ 0b00001011#8 ++ 0b10101111#8)) = .ok (.ginv 0 0x0b 0xaf) := by decide

/-- R66: the four operand layouts. -/
theorem test_decode_w2b : decode (.unitCall (.w2b (0b00110011#8 ++ 0b00100010#8))) = .ok (.w2b 0x3322) := by decide
theorem test_decode_b2w : decode (.unitCall (.b2w (0b00001011#8 ++ 0b10101111#8))) = .ok (.b2w 0x0b 0xaf) := by decide
theorem test_decode_flookup : decode (.unitCall (.flookup 0b00100010#8)) = .ok (.flookup 0x22) := by decide
theorem test_decode_keysel : decode (.unitCall (.keysel (0b00010#5 ++ 0b11#2))) = .ok (.keysel 2 3) := by decide

/-- The opcode table's numbering (log 13): one word of each format. -/
theorem test_table_words :
    decodeTableWord 88 0x0400000000000000000000 = some .enc ∧ decodeTableWord 2 0b10 = some .stepAinv
    ∧ decodeTableWord 22 0b1111110000000000000001 = some (.ginv 31 0 1) ∧ decodeTableWord 16 0x3322 = some (.w2b 0x3322)
    ∧ decodeTableWord 7 0b0001011 = some (.keysel 2 3) ∧ decodeTableWord 8 0xfe = some (.flookup 0xfe)
    ∧ decodeTableWord 88 0x0700000000000000000000 = none := by decide

/-! ### Well-formedness: an ill-formed term for each check, refused by it and by the decoder (95 section 4.7) -/

/-- R70: `op` outside `0x01` to `0x05`. -/
theorem test_ill_formed_opcode :
    (RawWord.command 0x0000000000000000000000).wellFormed = false
    ∧ (RawWord.command 0x0600000000000000000000).wellFormed = false
    ∧ decodeCommand 0x0000000000000000000000 = .error (.reservedOpcode 0x00)
    ∧ decodeCommand 0x0700000000000000000000 = .error (.reservedOpcode 0x07)
    ∧ decodeCommand 0xff00000000000000000000 = .error (.reservedOpcode 0xff) := by decide

/-- R70: `LDBLK` with `arg[79:64]` not zero. -/
theorem test_ill_formed_ldblk :
    (RawWord.command 0x02000133221100ddccbbaa).wellFormed = false
    ∧ decodeCommand 0x02000133221100ddccbbaa = .error (.mustBeZero 0x02)
    ∧ decodeCommand 0x02800033221100ddccbbaa = .error (.mustBeZero 0x02) := by decide

/-- R70: `RDBLK`, `ENC`, `DEC` with `arg` not zero, at its lowest and its highest bit. -/
theorem test_ill_formed_argument :
    (RawWord.command 0x0400000000000000000001).wellFormed = false
    ∧ decodeCommand 0x0380000000000000000000 = .error (.mustBeZero 0x03)
    ∧ decodeCommand 0x0400000000000000000001 = .error (.mustBeZero 0x04)
    ∧ decodeCommand 0x0500000000010000000000 = .error (.mustBeZero 0x05) := by decide

/-! ### The datapath (95 sections 4.1 to 4.4) -/

theorem test_flookup : fRom 0x00 = 0xa3 ∧ fRom 0x0f = 0xf9 ∧ fRom 0x10 = 0xe7 ∧ fRom 0x22 = 0x02 ∧ fRom 0x69 = 0x00
    ∧ fRom 0x7f = 0x1d ∧ fRom 0x80 = 0x42 ∧ fRom 0xa8 = 0x50 ∧ fRom 0xfe = 0x2a ∧ fRom 0xff = 0x46 := by decide +kernel

theorem test_flookup_exec : (nextOf (exec (.flookup 0x7c) State.reset)).map State.results = some [.byte 0xdd] := by
  decide +kernel

theorem test_w2b : (nextOf (exec (.w2b 0x3322) State.reset)).map State.results = some [.bytes 0x33 0x22]
    ∧ wordToBytes 0x00ff = (0x00, 0xff) ∧ wordToBytes 0x8001 = (0x80, 0x01) := by decide +kernel

theorem test_b2w : (nextOf (exec (.b2w 0x0b 0xaf) State.reset)).map State.results = some [.word 0x0baf]
    ∧ bytesToWord 0xff 0x00 = 0xff00 ∧ bytesToWord 0x80 0x01 = 0x8001 := by decide +kernel

theorem test_keysel : keySel 2 1 = 9 ∧ keySel 2 2 = 0 ∧ keySel 2 3 = 1 ∧ keySel 4 3 = 9 ∧ keySel 31 0 = 4
    ∧ keySel 31 3 = 7 := by decide

theorem test_keysel_exec : (nextOf (exec (.keysel 3 0) State.reset)).map State.results = some [.index 2] := by
  decide +kernel

theorem test_g : gPerm fRom srcKey 0x3322 0 = 0x0baf ∧ gPerm fRom srcKey 0x0000 2 = 0x05d7
    ∧ gPerm fRom srcKey 0x1234 31 = 0x2125 := by decide +kernel

theorem test_g_exec : (nextOf (exec (.g 2 0xff 0xff) (inRound .enc 3))).map State.results = some [.word 0x061e] := by
  decide +kernel

theorem test_ginv : gInv fRom srcKey 0x0baf 0 = 0x3322
    ∧ gInv fRom #v[0, 0, 0, 0, 0, 0, 0, 0, 0, 0] 0x0000 0 = 0x364a := by decide +kernel

theorem test_ginv_exec : (nextOf (exec (.ginv 31 0x21 0x25) (inRound .dec 32))).map State.results = some [.word 0x1234] := by
  decide +kernel

/-! ### The stepping rules (95 section 4.5), at the edges of their bands -/

theorem test_stepA : (nextOf (exec .stepA (inRound .enc 1))).map State.w = some ⟨0xfcff, 0xfcfa, 0x0002, 0x0003⟩
    ∧ (nextOf (exec .stepA (inRound .enc 8))).map State.w = some ⟨0xbae6, 0xbaea, 0x0002, 0x0003⟩ := by decide +kernel

theorem test_stepB : (nextOf (exec .stepB (inRound .enc 9))).map State.w = some ⟨0x0004, 0x4686, 0x000a, 0x0003⟩
    ∧ (nextOf (exec .stepB (inRound .enc 32))).map State.w = some ⟨0x0004, 0x7577, 0x0023, 0x0003⟩ := by decide +kernel

theorem test_stepAinv : (nextOf (exec .stepAinv (inRound .dec 17))).map State.w = some ⟨0xd1ed, 0x0003, 0x0004, 0x0012⟩
    ∧ (nextOf (exec .stepAinv (inRound .dec 1))).map State.w = some ⟨0x57ae, 0x0003, 0x0004, 0x0002⟩ := by decide +kernel

theorem test_stepBinv : (nextOf (exec .stepBinv (inRound .dec 32))).map State.w = some ⟨0xd1ed, 0xd1ce, 0x0004, 0x0001⟩
    ∧ (nextOf (exec .stepBinv (inRound .dec 16))).map State.w = some ⟨0x57ae, 0x57bd, 0x0004, 0x0001⟩ := by decide +kernel

/-! ### The whole block (95 sections 1.1, 1.2, 4.6): the source's known answers, and two corners -/

theorem test_encrypt : encrypt fRom srcKey plain = cipher := by decide +kernel
theorem test_decrypt : decrypt fRom srcKey cipher = plain := by decide +kernel
theorem test_encrypt_zero :
    encrypt fRom #v[0, 0, 0, 0, 0, 0, 0, 0, 0, 0] ⟨0, 0, 0, 0⟩ = ⟨0xaaae, 0x8ede, 0x6764, 0x143d⟩ := by decide +kernel
theorem test_decrypt_fresh : decrypt fRom srcKey plain = ⟨0xebf4, 0x6477, 0x1475, 0x6189⟩ := by decide +kernel

/-! ### Steps (95 sections 4.7 and 5) -/

theorem test_ldkey : nextOf (step { State.reset with host := [wLdkey] })
    = some { State.reset with key := srcKey, kv := true } := by decide +kernel
theorem test_ldblk : nextOf (step { State.reset with host := [wLdblk] })
    = some { State.reset with w := plain, bv := true } := by decide +kernel
theorem test_rdblk : nextOf (step { presenting [wRdblk] with w := cipher })
    = some { loaded with w := cipher, out := [0x2587cae27a12d300] } := by decide +kernel
theorem test_rdblk_refused : refusalOf (step { State.reset with host := [wRdblk] }) = some .blockNotLoaded := by
  decide +kernel
theorem test_enc : nextOf (step (presenting [wEnc])) = some { loaded with phase := .enc, ctr := 1 } := by decide +kernel
theorem test_enc_refused : refusalOf (step { State.reset with host := [wEnc] }) = some .keyNotLoaded
    ∧ refusalOf (step { presenting [wEnc] with bv := false }) = some .blockNotLoaded := by decide +kernel
theorem test_dec : nextOf (step (presenting [wDec])) = some { loaded with phase := .dec, ctr := 32 } := by decide +kernel
theorem test_dec_refused : refusalOf (step { presenting [wDec] with kv := false }) = some .keyNotLoaded := by
  decide +kernel

/-- The first and the last round of scenario 1, and the first of scenario 2 (95 section 5, P1, P2). -/
theorem test_rounds :
    nextOf (step { loaded with phase := .enc, ctr := 1 })
      = some { loaded with w := ⟨0xb004, 0x0baf, 0x1100, 0xddcc⟩, phase := .enc, ctr := 2 }
    ∧ nextOf (step { loaded with w := ⟨0x1adc, 0x60ee, 0xd300, 0x2587⟩, phase := .enc, ctr := 32 })
      = some { loaded with w := cipher }
    ∧ nextOf (step { loaded with w := cipher, phase := .dec, ctr := 32 })
      = some { loaded with w := ⟨0x1adc, 0x60ee, 0xd300, 0x2587⟩, phase := .dec, ctr := 31 } := by decide +kernel

/-- Reset in the middle of a transform, with a command waiting (spec/60_exceptions.md R144). -/
theorem test_reset : nextOf (step { inRound .enc 5 with rstLine := [true, false], host := [wEnc] })
    = some { State.reset with rstLine := [false], host := [wEnc] } := by decide +kernel

/-- A table word placed where the next step fetches it (log 14). -/
theorem test_placed :
    nextOf (step (State.reset.withFetchWord 88 0x0100998877665544332211)) = some { State.reset with key := srcKey, kv := true }
    ∧ ((nextOf (step (State.reset.withFetchWord 2 0b01))).map State.ctr) = some 10
    ∧ ((nextOf (step (State.reset.withFetchWord 16 0x3322))).map State.results) = some [.bytes 0x33 0x22]
    ∧ (nextOf (step (State.reset.withFetchWord 22 0))).map (fun t => t.w.w1) = some 0x4a36
    ∧ (nextOf (step ({ loaded with kv := false }.withFetchWord 22 0b1111110010000100100101))).map (fun t => t.w.w0)
      = some 0x1234 := by decide +kernel

/-- The bundle of a round, and of a round a table word was placed in (spec/41_g_permutation.md R95, spec/30_encoding.md R65). -/
theorem test_gop :
    (inRound .enc 9).gop = some (0b0#1 ++ 8#5 ++ 0x0001#16)
    ∧ (inRound .dec 32).gop = some (0b1#1 ++ 31#5 ++ 0x0002#16) ∧ loaded.gop = none ∧ loaded.rsel = none
    ∧ (State.reset.withFetchWord 22 0b0010100000101110101111).gop = some 0b0010100000101110101111
    ∧ (State.reset.withFetchWord 22 0b1111110010000100100101).gop = some 0b1111110010000100100101 := by decide +kernel

/-- The text of P1 (95 section 5), its second half as the pseudo-instruction of R74. -/
theorem test_assemble :
    assemble "LDKEY 00 99 88 77 66 55 44 33 22 11     ; 0100998877665544332211\nENCRYPT 3322 1100 ddcc bbaa".toList
      = some [wLdkey, wLdblk, wEnc, wRdblk]
    ∧ assemble "LDKEY 00 99 88".toList = none ∧ assemble "LDBLK 332 1100 ddcc bbaa".toList = none
    ∧ assemble "JUMP".toList = none ∧ assemble "ENC 00".toList = none := by decide +kernel

/-! ### Witnesses: states and operands that meet the hypotheses of the statements -/

/-- EncodeDecodeEveryWord, DecoderAcceptsExactlyWellFormed. -/
theorem test_wit_word : decode (.command wEnc) = .ok .enc ∧ decode (.roundSelect 3) = .ok .stepBinv
    ∧ decode (.unitCall (.keysel 127)) = .ok (.keysel 31 3) ∧ (RawWord.command wLdkey).wellFormed = true := by decide

/-- ReservedCommandsAreRefused: the three kinds of reserved word, and the nearest accepted neighbours. -/
theorem test_wit_reserved :
    reservedCommand 0x0000000000000000000000 ∧ reservedCommand 0x0600000000000000000000
    ∧ reservedCommand 0x02000133221100ddccbbaa ∧ reservedCommand 0x0300000000000000000001
    ∧ reservedCommand 0x0400000000000000000001 ∧ reservedCommand 0x0580000000000000000000
    ∧ ¬ reservedCommand wLdkey ∧ ¬ reservedCommand wLdblk ∧ ¬ reservedCommand wRdblk ∧ ¬ reservedCommand wEnc
    ∧ ¬ reservedCommand wDec ∧ ¬ reservedCommand 0x01ffffffffffffffffffff
    ∧ ∀ c : CmdWord, (presenting [c]).phase = .idle ∧ (presenting [c]).call = none ∧ (presenting [c]).released 1
      ∧ (presenting [c]).host = [c] :=
  ⟨by decide, by decide, by decide, by decide, by decide, by decide, by decide, by decide, by decide, by decide,
    by decide, by decide, fun _ => ⟨rfl, rfl, fun _ h => (nomatch h), rfl⟩⟩

/-- KeyIndexPattern, GIsAPeriodicBijection: the last step that has a step five later; counters that differ and take
the same key bytes; a key that has the same bytes at steps whose indices differ. -/
theorem test_wit_period : (26 : Step).toNat + 5 < 32 ∧ (1 : Counter) ≠ 0 ∧ (6 : Counter) ≠ 0 ∧ (1 : Counter) ≠ 6
    ∧ (∀ i : Stage, keySel (stepOf 1) i = keySel (stepOf 6) i)
    ∧ keySel 0 0 ≠ keySel 1 0 ∧ ∀ i : Stage, keyByte Config.resetKey 0 i = keyByte Config.resetKey 1 i := by decide

/-- RoundSelectFollowsSchedule: both directions, both sides of each edge of a band. -/
theorem test_wit_bands :
    (∀ c ∈ ([1, 8, 9, 16, 17, 24, 25, 32] : List Counter), c ≠ 0 ∧ (inRound .enc c).ctr ≠ 0 ∧ (inRound .enc c).phase = .enc
      ∧ (inRound .dec c).ctr ≠ 0 ∧ (inRound .dec c).phase = .dec)
    ∧ scheduled 8 = some .a ∧ scheduled 9 = some .b ∧ scheduled 16 = some .b ∧ scheduled 17 = some .a
    ∧ scheduled 24 = some .a ∧ scheduled 25 = some .b ∧ scheduled 32 = some .b := by decide

/-- ResetOverridesEverything: reset held for two steps, in the middle of a round. -/
theorem test_wit_reset : ({ inRound .dec 3 with rstLine := [true, true] } : State).rstLine = true :: [true] := by decide

/-- ReadsRefusedUntilLoaded: neither mark, the key alone, the block alone; a stepping rule; a round without a key. -/
theorem test_wit_unloaded : State.reset.kv = false ∧ State.reset.bv = false ∧ State.reset.phase = .idle
    ∧ ({ loaded with bv := false } : State).kv = true ∧ ({ loaded with bv := false } : State).phase = .idle
    ∧ ({ loaded with kv := false } : State).bv = true ∧ Instr.stepBinv.group = .micro
    ∧ (let s : State := { inRound .enc 1 with kv := false }
       s.phase ≠ .idle ∧ s.ctr ≠ 0 ∧ s.kv = false) := by decide

/-- LdkeyLoadsTheWholeKey: after reset and with the same key loaded, and a first key overwritten. -/
theorem test_wit_ldkey : State.reset.phase = .idle ∧ loaded.phase = .idle ∧ loaded.kv = true ∧ loaded.key = srcKey
    ∧ nextOf (exec (.ldkey srcKey) State.reset) = some { State.reset with key := srcKey, kv := true } := by decide +kernel

/-- LdblkLoadsTheWholeBlock: the two loads in either order. -/
theorem test_wit_ldblk : State.reset.phase = .idle
    ∧ nextOf (exec (.ldblk plain) State.reset) = some { State.reset with w := plain, bv := true }
    ∧ nextOf (exec (.ldkey srcKey) State.reset) = some { State.reset with key := srcKey, kv := true } := by decide +kernel

/-- RdblkEmitsTheBlock. -/
theorem test_wit_rdblk : loaded.phase = .idle ∧ loaded.bv = true
    ∧ nextOf (exec .rdblk loaded) = some { loaded with out := [0x33221100ddccbbaa] }
    ∧ nextOf (exec (.ldblk cipher) loaded) = some { loaded with w := cipher } := by decide +kernel

/-- EncStartsAtCounterOne, DecStartsAtCounterThirtyTwo. -/
theorem test_wit_start : loaded.phase = .idle ∧ loaded.kv = true ∧ loaded.bv = true := by decide

/-- CommandsWaitWhileBusy. -/
theorem test_wit_busy : (inRound .enc 32).phase ≠ .idle ∧ (inRound .dec 1).phase ≠ .idle
    ∧ decodeCommand wLdkey = .ok (.ldkey srcKey) := by decide

/-- StepARewritesTheBlock and its three companions: the first and the last counter, in either phase. -/
theorem test_wit_stepping : ∀ s ∈ [inRound .enc 1, inRound .enc 32, inRound .dec 32, inRound .dec 1],
    s.phase ≠ .idle ∧ s.ctr ≠ 0 ∧ s.kv = true ∧ s.bv = true := by decide

/-- SteppingRulesNeedARound. -/
theorem test_wit_no_round : loaded.phase = .idle ∧ Instr.stepA.group = .micro ∧ Instr.stepB.group = .micro
    ∧ Instr.stepAinv.group = .micro ∧ Instr.stepBinv.group = .micro := by decide

/-- GUnitComputesItsFourStages, RoundFeedsTheGUnit: the first and the last counter of either direction. -/
theorem test_wit_gunit : (∀ s ∈ [inRound .enc 1, inRound .enc 32], s.released 1 ∧ s.ctr ≠ 0 ∧ s.kv = true ∧ s.bv = true
      ∧ s.phase = .enc ∧ s.phase ≠ .idle)
    ∧ ∀ s ∈ [inRound .dec 32, inRound .dec 1], s.released 1 ∧ s.ctr ≠ 0 ∧ s.kv = true ∧ s.bv = true
      ∧ s.phase = .dec ∧ s.phase ≠ .idle := by decide

/-- BundlesNeedARound: with a command, and with a call. -/
theorem test_wit_bundle : loaded.phase = .idle ∧ (presenting [wEnc]).fetch = .run .enc loaded
    ∧ ({ loaded with call := some (.flookup 1) } : State).fetch = .run (.flookup 1) loaded := by decide +kernel

/-- RoundStepOfTheEngine: the first and the last round of either direction, and the rule's example. -/
theorem test_wit_round :
    (∀ s ∈ [inRound .enc 1, inRound .enc 32], s.released 1 ∧ s.ctr ≠ 0 ∧ s.kv = true ∧ s.bv = true ∧ s.phase = .enc)
    ∧ (∀ s ∈ [inRound .dec 32, inRound .dec 1], s.released 1 ∧ s.ctr ≠ 0 ∧ s.kv = true ∧ s.bv = true ∧ s.phase = .dec)
    ∧ (nextOf (step (inRound .enc 32))).map State.ready = some true
    ∧ (nextOf (step (inRound .dec 2))).map State.ready = some false
    ∧ (inRound .dec 9).ctr ≠ 0 ∧ (inRound .dec 9).fetch = .round .stepBinv (inRound .dec 9)
    ∧ (let s : State := { loaded with phase := .enc, ctr := 1 }
       s.released 1 ∧ s.phase = .enc ∧ s.ctr = 1 ∧ s.kv = true ∧ s.bv = true
       ∧ s.key = #v[0x00, 0x99, 0x88, 0x77, 0x66, 0x55, 0x44, 0x33, 0x22, 0x11]
       ∧ s.w = ⟨0x3322, 0x1100, 0xddcc, 0xbbaa⟩) := by decide +kernel

/-- StepRunsTheDecodedInstruction: a command, an internal call, a round. -/
theorem test_wit_step :
    ((presenting [wEnc]).released 1 ∧ (presenting [wEnc]).phase = .idle ∧ (presenting [wEnc]).call = none
      ∧ (presenting [wEnc]).host = [wEnc] ∧ decode (.command wEnc) = .ok .enc)
    ∧ (let s : State := { loaded with call := some (.keysel 0) }
       s.released 1 ∧ s.phase = .idle ∧ s.call = some (.keysel 0) ∧ decode (.unitCall (.keysel 0)) = .ok (.keysel 0 0))
    ∧ ((inRound .enc 9).released 1 ∧ (inRound .enc 9).phase ≠ .idle
      ∧ (inRound .enc 9).rsel = some 0b01 ∧ decode (.roundSelect 0b01) = .ok .stepB) := by decide +kernel

/-- IdleStepsKeepEverything: with part of a released reset line, and past its end. -/
theorem test_wit_idle : let s : State := { loaded with rstLine := [false, false] }
    s.released 5 ∧ s.phase = .idle ∧ s.call = none ∧ s.host = [] := by decide

/-- InvariantKeptByEveryStep: steps that start, continue and end a transform. -/
theorem test_wit_invariant : (presenting [wEnc]).Inv ∧ (inRound .enc 1).Inv ∧ (inRound .dec 1).Inv
    ∧ (nextOf (step (presenting [wEnc]))).isSome = true ∧ (nextOf (step (inRound .enc 1))).isSome = true
    ∧ (nextOf (step (inRound .dec 1))).isSome = true := by decide +kernel

/-- BlockDuringATransform at the first and the last `n`, TransformRefinesTheFunction. -/
theorem test_wit_transform : ∀ c : CmdWord, c = 0x0400000000000000000000 ∨ c = 0x0500000000000000000000 →
    (presenting [c]).released 1 ∧ (presenting [c]).released 32 ∧ (presenting [c]).released 33
    ∧ (presenting [c]).phase = .idle ∧ (presenting [c]).call = none ∧ (presenting [c]).kv = true
    ∧ (presenting [c]).bv = true ∧ (presenting [c]).host = [c] ∧ 0 < 32 ∧ 31 < 32 :=
  fun _ _ => ⟨fun _ h => (nomatch h), fun _ h => (nomatch h), fun _ h => (nomatch h), rfl, rfl, rfl, rfl, rfl,
    by decide, by decide⟩

/-- TransformEndsOnTime: none and all of the rounds, in either direction, and all but one. -/
theorem test_wit_end : (inRound .enc 1).Inv ∧ (inRound .enc 1).released 32 ∧ (inRound .enc 1).phase = .enc
    ∧ 0 ≤ 33 - (inRound .enc 1).ctr.val ∧ 31 ≤ 33 - (inRound .enc 1).ctr.val ∧ 32 = 33 - (inRound .enc 1).ctr.val
    ∧ (inRound .dec 32).Inv ∧ (inRound .dec 32).released 32 ∧ (inRound .dec 32).phase = .dec
    ∧ 31 ≤ (inRound .dec 32).ctr.val ∧ 32 = (inRound .dec 32).ctr.val := by decide

/-- CommandSequenceIsTheSoftwareCall: the programs P1 and P2, from reset and from a loaded state. -/
theorem test_wit_sequence :
    (∀ ws : List CmdWord, ({ State.reset with host := ws } : State).released 36
      ∧ ({ State.reset with host := ws } : State).phase = .idle ∧ ({ State.reset with host := ws } : State).call = none
      ∧ (presenting ws).released 36 ∧ (presenting ws).phase = .idle ∧ (presenting ws).call = none)
    ∧ (presenting [wLdkey, wLdblk, wEnc, wRdblk]).host = [wLdkey, wLdblk, wEnc, wRdblk]
    ∧ decodeCommand wLdkey = .ok (.ldkey srcKey) ∧ decodeCommand wLdblk = .ok (.ldblk plain)
    ∧ decodeCommand wRdblk = .ok .rdblk ∧ decodeCommand wEnc = .ok .enc ∧ decodeCommand wDec = .ok .dec :=
  ⟨fun _ => ⟨fun _ h => (nomatch h), rfl, rfl, fun _ h => (nomatch h), rfl, rfl⟩, rfl, by decide, by decide, by decide,
    by decide, by decide⟩

/-- ChainedTransformsRestoreTheBlock: both orders. -/
theorem test_wit_chain :
    (∀ ws : List CmdWord, (presenting ws).released 68 ∧ (presenting ws).phase = .idle ∧ (presenting ws).call = none
      ∧ (presenting ws).kv = true)
    ∧ (presenting [wLdblk, wEnc, wDec, wRdblk]).host = [wLdblk, wEnc, wDec, wRdblk]
    ∧ (presenting [wLdblk, wDec, wEnc, wRdblk]).host = [wLdblk, wDec, wEnc, wRdblk]
    ∧ decodeCommand wLdblk = .ok (.ldblk plain) ∧ decodeCommand wRdblk = .ok .rdblk
    ∧ decodeCommand wEnc = .ok .enc ∧ decodeCommand wDec = .ok .dec :=
  ⟨fun _ => ⟨fun _ h => (nomatch h), rfl, rfl, rfl⟩, rfl, rfl, by decide, by decide, by decide, by decide⟩

/-- EachRegisterHasItsWriters: every kind of instruction answers a next state somewhere. -/
theorem test_wit_writers :
    (∀ i ∈ [.ldkey srcKey, .ldblk plain, .rdblk, .enc, .dec, .w2b 1, .b2w 1 2, .flookup 1, .keysel 1 1], (nextOf (exec i loaded)).isSome = true)
    ∧ ∀ i ∈ [.stepA, .stepB, .stepAinv, .stepBinv, .g 0 1 2, .ginv 0 1 2], (nextOf (exec i (inRound .enc 1))).isSome = true := by decide +kernel

/-- StepsNeverMakeUpInputs: a step that takes a word from the port, and one that leaves it. -/
theorem test_wit_inputs : (presenting [wEnc]).call = none
    ∧ (nextOf (step (presenting [wEnc]))).map State.host = some []
    ∧ (nextOf (step { inRound .enc 1 with host := [wEnc] })).map State.host = some [wEnc] := by decide +kernel

/-- UnwrittenContentsAreUnobservable: two states that differ, in an unwritten key and in an unwritten block. -/
theorem test_wit_masked :
    ({ State.reset with key := srcKey } : State) ≠ State.reset
    ∧ ({ State.reset with key := srcKey } : State).masked = State.reset.masked
    ∧ ({ State.reset with w := plain } : State) ≠ State.reset
    ∧ ({ State.reset with w := plain } : State).masked = State.reset.masked := by decide +kernel

/-- OnlyTheThreeRefusals: each situation of R142, and a state that has a step. -/
theorem test_wit_refusals :
    (∀ s ∈ [presenting [0x0000000000000000000000], presenting [0x0400000000000000000001], { presenting [wEnc] with kv := false },
        { presenting [wDec] with bv := false }, { presenting [wRdblk] with bv := false }],
      s.Inv ∧ s.call = none ∧ s.released 1 ∧ (refusalOf (step s)).isSome = true)
    ∧ (∀ s ∈ [presenting [wEnc], presenting [], inRound .enc 32],
      s.Inv ∧ s.call = none ∧ s.released 1 ∧ (nextOf (step s)).isSome = true) := by decide +kernel

/-- LaunchPremisesSuffice: the program P3's first half from reset, and a lone `ENC` on a loaded state; the programs of P5
do not meet the premises. -/
theorem test_wit_launch :
    (let s : State := { State.reset with host := [wLdkey, wLdblk, wEnc, wRdblk, wEnc, wRdblk, wDec, wDec, wRdblk] }
     s.Inv ∧ s.call = none ∧ s.released 200 ∧ launchOk s.kv s.bv s.host = true)
    ∧ launchOk true true [wEnc] = true ∧ launchOk false false [wEnc] = false ∧ launchOk false false [wLdkey, wEnc] = false
    ∧ launchOk false false [wLdblk, wDec] = false
    ∧ launchOk false false [wLdkey, wLdblk, 0x0700000000000000000000] = false := by decide +kernel

end Sys2Proof.Tests
end

section
/-! PROOFS of the family 10_state: what the guards refuse, what a step can do, and the statements on the registers,
the invariant and the unread contents (spec/10_state.md). -/

namespace Sys2Proof.Machine

/-! ### Refusals -/

theorem State.whenKey_of_unloaded {s : State} (h : s.kv = false) (o : Result) :
    s.whenKey o = .refused .keyNotLoaded := by
  simp [State.whenKey, h]

theorem State.whenBlock_of_unloaded {s : State} (h : s.bv = false) (o : Result) :
    s.whenBlock o = .refused .blockNotLoaded := by
  simp [State.whenBlock, h]

/-- There is no fault, so an outcome without a next state is a refusal (spec/60_exceptions.md R140). -/
theorem exists_refused_of_ne_next {o : Result} (h : ∀ t, o ≠ .next t) : ∃ r, o = .refused r := by
  cases o with
  | next t => exact absurd rfl (h t)
  | fault f => exact nomatch f
  | refused r => exact ⟨r, rfl⟩

/-- A stepping rule answers only in a round and with both marks set. -/
theorem exec_micro_eq_next {i : Instr} {s t : State} (hi : i.group = .micro) (h : exec i s = .next t) :
    s.phase ≠ .idle ∧ s.ctr ≠ 0 ∧ s.kv = true ∧ s.bv = true := by
  obtain ⟨k, rfl, -⟩ | ⟨b, rfl, -⟩ | ⟨rfl, -⟩ | ⟨⟨rfl, -⟩ | ⟨rfl, -⟩, -⟩ | ⟨-, -, hround⟩ | ⟨-, hd⟩ := exec_cases h
  · cases hi
  · cases hi
  · cases hi
  · cases hi
  · cases hi
  · exact hround
  · exact nomatch hi.symm.trans hd

theorem execG_eq_next {step : Step} {hi lo : Byte} {s t : State} (h : exec (.g step hi lo) s = .next t) :
    s.kv = true :=
  (State.whenKey_eq_next (State.whenRound_eq_next h).2).1

theorem execGinv_eq_next {step : Step} {hi lo : Byte} {s t : State} (h : exec (.ginv step hi lo) s = .next t) :
    s.kv = true :=
  (State.whenKey_eq_next (State.whenRound_eq_next h).2).1

/-- Settles O20: each guard refuses while its mark is clear, and an operation whose answer needs a mark has none. -/
theorem readsRefusedUntilLoaded : Obligations.ReadsRefusedUntilLoaded := by
  intro s
  refine ⟨fun hk => ⟨fun hp => ⟨?_, ?_⟩, fun step hi lo hp hc => ⟨?_, ?_⟩, fun step hi lo => ⟨?_, ?_⟩, fun i hi => ?_⟩,
    fun hb => ⟨fun hp => ?_, fun hp hk => ⟨?_, ?_⟩, fun i hi => ?_⟩⟩
  · exact (State.whenReady_of_idle hp _).trans (State.whenKey_of_unloaded hk _)
  · exact (State.whenReady_of_idle hp _).trans (State.whenKey_of_unloaded hk _)
  · exact (State.whenRound_of_round hp hc _).trans (State.whenKey_of_unloaded hk _)
  · exact (State.whenRound_of_round hp hc _).trans (State.whenKey_of_unloaded hk _)
  · exact exists_refused_of_ne_next fun t h => absurd (execG_eq_next h) (by simp [hk])
  · exact exists_refused_of_ne_next fun t h => absurd (execGinv_eq_next h) (by simp [hk])
  · refine exists_refused_of_ne_next fun t h => ?_
    obtain ⟨-, -, hkv, -⟩ := exec_micro_eq_next hi h
    simp [hk] at hkv
  · exact (State.whenReady_of_idle hp _).trans (State.whenBlock_of_unloaded hb _)
  · exact (State.whenReady_of_idle hp _).trans ((State.whenKey_of_loaded hk _).trans (State.whenBlock_of_unloaded hb _))
  · exact (State.whenReady_of_idle hp _).trans ((State.whenKey_of_loaded hk _).trans (State.whenBlock_of_unloaded hb _))
  · refine exists_refused_of_ne_next fun t h => ?_
    obtain ⟨-, -, -, hbv⟩ := exec_micro_eq_next hi h
    simp [hb] at hbv

/-! ### The reset state and the writers of the registers -/

/-- Settles O18: the reset state is a literal. -/
theorem resetLeavesTheSpecValues : Obligations.ResetLeavesTheSpecValues :=
  ⟨rfl, rfl, rfl, rfl, rfl, rfl⟩

/-- A state that is `IDLE` at counter 0 meets the invariant, whatever its marks. -/
theorem State.inv_of_idle {s : State} (hp : s.phase = .idle) (hc : s.ctr = 0) : s.Inv :=
  ⟨iff_of_true hc hp, fun h => absurd hp h⟩

/-- Settles O37: reset is `IDLE` at counter 0. -/
theorem invariantHoldsAtReset : Obligations.InvariantHoldsAtReset := State.inv_of_idle rfl rfl

/-- Settles O44, by the cases of what an instruction can do. -/
theorem eachRegisterHasItsWriters : Obligations.EachRegisterHasItsWriters := by
  intro i s t h
  obtain ⟨k, rfl, -, rfl⟩ | ⟨b, rfl, -, rfl⟩ | ⟨rfl, -, -, rfl⟩ | ⟨⟨rfl, rfl⟩ | ⟨rfl, rfl⟩, -⟩ | ⟨⟨b, rfl⟩, hi, -⟩
    | ⟨⟨v, rfl⟩, hi⟩ := exec_cases h
  · simp
  · simp
  · simp
  · simp
  · simp
  · simp [hi]
  · simp [hi]

/-! ### What a step can do -/

/-- The situations a step starts from: reset asserted, a round, or `IDLE` with a call, with a word at the port, or with
nothing to do. -/
theorem State.situations (s : State) :
    (∃ rest, s.rstLine = true :: rest)
    ∨ s.released 1 ∧ ((∃ r, s.rsel = some r)
      ∨ s.phase = .idle ∧ ((∃ u, s.call = some u)
        ∨ s.call = none ∧ ((∃ c rest, s.host = c :: rest) ∨ s.host = []))) := by
  have hline : (∃ rest, s.rstLine = true :: rest) ∨ s.released 1 := by
    cases hl : s.rstLine with
    | nil => exact .inr (by simp [State.released, hl])
    | cons b rest =>
      cases b with
      | false => exact .inr (by simp [State.released, hl])
      | true => exact .inl ⟨rest, rfl⟩
  refine hline.imp_right fun hr => ⟨hr, ?_⟩
  by_cases hp : s.phase = .idle
  · refine .inr ⟨hp, ?_⟩
    cases hc : s.call with
    | some u => exact .inl ⟨u, rfl⟩
    | none =>
      cases hh : s.host with
      | nil => exact .inr ⟨rfl, .inr rfl⟩
      | cons c rest => exact .inr ⟨rfl, .inl ⟨c, rest, rfl⟩⟩
  · exact .inl ((State.exists_rsel_iff s).mpr hp)

theorem mapNext_eq_next {f : State → State} {o : Result} {t : State} (h : mapNext f o = .next t) :
    ∃ u, o = .next u ∧ t = f u := by
  cases o with
  | next u => injection h with h; exact ⟨u, rfl, h.symm⟩
  | fault x => cases h
  | refused r => cases h

/-- Everything a step can do: it resets the machine, it holds the state, it executes an instruction in `IDLE`, or it
executes one in a round and advances; before any of them only the model's inputs are consumed. -/
theorem step_cases {s t : State} (h : step s = .next t) :
    ∃ line host call, let u : State := { s with rstLine := line, host := host, call := call }
      t = u.applyReset ∨ t = u ∨ (∃ i, exec i u = .next t)
      ∨ ∃ i v, s.phase ≠ .idle ∧ exec i u = .next v ∧ t = v.advance := by
  obtain ⟨rest, hl⟩ | ⟨hr, ⟨r, hsel⟩ | ⟨hp, ⟨u, hu⟩ | ⟨hc, ⟨c, rest, hh⟩ | hh⟩⟩⟩ := s.situations
  · rw [step_reset hl] at h
    injection h with h
    exact ⟨rest, s.host, s.call, .inl h.symm⟩
  · rw [step_busy hr hsel] at h
    obtain ⟨v, hv, ht⟩ := mapNext_eq_next h
    exact ⟨_, _, _, .inr (.inr (.inr ⟨_, v, s.exists_rsel_iff.mp ⟨r, hsel⟩, hv, ht⟩))⟩
  · rw [step_call hr hp hu] at h
    exact ⟨_, _, _, .inr (.inr (.inl ⟨_, h⟩))⟩
  · rw [step_command hr hp hc hh] at h
    cases hd : decodeCommand c with
    | ok i => rw [hd] at h; exact ⟨_, _, _, .inr (.inr (.inl ⟨i, h⟩))⟩
    | error e => rw [hd] at h; cases h
  · rw [step_idle hr hp hc hh] at h
    injection h with h
    exact ⟨_, _, _, .inr (.inl h.symm)⟩

/-! ### The invariant -/

/-- Every instruction keeps the invariant: `ENC` and `DEC` find both marks set, and no other writes `CTR` or `PHASE`
or clears a mark. -/
theorem exec_keeps_inv {s t : State} (hs : s.Inv) {i : Instr} (h : exec i s = .next t) : t.Inv := by
  obtain ⟨k, rfl, hp, rfl⟩ | ⟨b, rfl, hp, rfl⟩ | ⟨rfl, -, -, rfl⟩ | ⟨⟨rfl, rfl⟩ | ⟨rfl, rfl⟩, -, hk, hb⟩ | ⟨⟨b, rfl⟩, -⟩
    | ⟨⟨v, rfl⟩, -⟩ := exec_cases h
  · exact ⟨hs.1, fun hn => absurd hp hn⟩
  · exact ⟨hs.1, fun hn => absurd hp hn⟩
  · exact hs
  · exact ⟨by simp, fun _ => ⟨hk, hb⟩⟩
  · exact ⟨by simp, fun _ => ⟨hk, hb⟩⟩
  · exact hs
  · exact hs

/-- The start of a round at a counter of a round keeps the marks a round needs. -/
theorem start_keeps_inv {s : State} (hs : s.Inv) (hp : s.phase ≠ .idle) {p : Phase} (hp' : p ≠ .idle)
    {c : Counter} (hc : c ≠ 0) : (s.start p c).Inv :=
  ⟨iff_of_false hc hp', fun _ => hs.2 hp⟩

/-- The advance of a round keeps the invariant: the counter leaves 1..32 only with the last round, which ends in
`IDLE` (spec/43_engine.md R114). -/
theorem advance_keeps_inv {s : State} (hs : s.Inv) : s.advance.Inv := by
  unfold State.advance
  cases hp : s.phase with
  | idle => exact hs
  | enc =>
    have hround : s.phase ≠ .idle := by simp [hp]
    by_cases h32 : s.ctr = 32
    · simpa [h32] using State.inv_of_idle (s := s.start .idle 0) rfl rfl
    · have hnext : s.ctr + 1 ≠ 0 := fun h => h32 (eq_neg_of_add_eq_zero_left h)
      simpa [h32] using start_keeps_inv hs hround (p := .enc) nofun hnext
  | dec =>
    have hround : s.phase ≠ .idle := by simp [hp]
    by_cases h1 : s.ctr = 1
    · simpa [h1] using State.inv_of_idle (s := s.start .idle 0) rfl rfl
    · have hnext : s.ctr - 1 ≠ 0 := fun h => h1 (sub_eq_zero.mp h)
      simpa [h1] using start_keeps_inv hs hround (p := .dec) nofun hnext

/-- Settles O38: reset leads to a legal state, every instruction and the advance of a round keep one, and the inputs a
step consumes are not in the invariant. -/
theorem invariantKeptByEveryStep : Obligations.InvariantKeptByEveryStep := by
  intro s t hs h
  obtain ⟨line, host, call, rfl | rfl | ⟨i, hi⟩ | ⟨i, v, -, hv, rfl⟩⟩ := step_cases h
  · exact State.inv_of_idle rfl rfl
  · exact hs
  · exact exec_keeps_inv (s := { s with rstLine := line, host := host, call := call }) hs hi
  · exact advance_keeps_inv (exec_keeps_inv (s := { s with rstLine := line, host := host, call := call }) hs hv)

/-! ### A round of the engine -/

/-- The select of a round is its direction and bit 3 of its step (spec/30_encoding.md R64). -/
theorem decodeRoundSelect_enc :
    ∀ n : Step, decodeRoundSelect (0#1 ++ n.extractLsb' 3 1) = if n.getLsbD 3 then .stepB else .stepA := by decide

theorem decodeRoundSelect_dec :
    ∀ n : Step, decodeRoundSelect (1#1 ++ n.extractLsb' 3 1) = if n.getLsbD 3 then .stepBinv else .stepAinv := by decide

/-- A stepping rule reads its registers alone. -/
theorem State.applyRule_congr {s : State} {f g : Key → Block → Counter → Block}
    (h : f s.key s.w s.ctr = g s.key s.w s.ctr) : s.applyRule f = s.applyRule g := by
  simp only [State.applyRule, h]

/-- The micro-operation selected in `ENC` applies the round's `ENCRULE` (spec/43_engine.md R111). -/
theorem exec_roundSelect_enc (s : State) :
    exec (decodeRoundSelect (0#1 ++ s.step.extractLsb' 3 1)) s = s.applyRule (encRule fRom) := by
  rw [decodeRoundSelect_enc, State.step]
  cases hf : (stepOf s.ctr).getLsbD 3 with
  | false => exact State.applyRule_congr (f := ruleA fRom) (by simp only [encRule, familyOf, hf]; rfl)
  | true => exact State.applyRule_congr (f := ruleB fRom) (by simp only [encRule, familyOf, hf]; rfl)

/-- The micro-operation selected in `DEC` applies the round's `DECRULE` (R111). -/
theorem exec_roundSelect_dec (s : State) :
    exec (decodeRoundSelect (1#1 ++ s.step.extractLsb' 3 1)) s = s.applyRule (decRule fRom) := by
  rw [decodeRoundSelect_dec, State.step]
  cases hf : (stepOf s.ctr).getLsbD 3 with
  | false => exact State.applyRule_congr (f := ruleAinv fRom) (by simp only [decRule, familyOf, hf]; rfl)
  | true => exact State.applyRule_congr (f := ruleBinv fRom) (by simp only [decRule, familyOf, hf]; rfl)

/-- A counter given by a number in its range differs from each other counter. -/
theorem counter_ofNat_ne {m : Nat} {c : Counter} (hm : m < 33) (h : m ≠ c.val) : (Fin.ofNat 33 m : Counter) ≠ c :=
  fun he => h ((Nat.mod_eq_of_lt hm).symm.trans (congrArg Fin.val he))

theorem State.advance_enc {s : State} (hp : s.phase = .enc) (hc : s.ctr ≠ 32) :
    s.advance = s.start .enc (s.ctr + 1) := by
  simp [State.advance, hp, hc]

theorem State.advance_dec {s : State} (hp : s.phase = .dec) (hc : s.ctr ≠ 1) :
    s.advance = s.start .dec (s.ctr - 1) := by
  simp [State.advance, hp, hc]

/-- A round of `ENC`: `W` by `ENCRULE` at the old counter, then the advance (R114). -/
theorem step_enc {s : State} (hr : s.released 1) (hp : s.phase = .enc) (hc : s.ctr ≠ 0) (hk : s.kv = true)
    (hb : s.bv = true) :
    step s = .next (({ s with rstLine := s.rstLine.tail } : State).putBlock (encRule fRom s.key s.w s.ctr)).advance := by
  rw [step_busy hr (State.rsel_of_enc hp)]
  have hround : s.phase ≠ .idle := by simp [hp]
  have hexec := (exec_roundSelect_enc { s with rstLine := s.rstLine.tail }).trans
    (State.applyRule_of_round _ hround hc hk hb)
  exact congrArg (mapNext State.advance) hexec

/-- A round of `DEC`: `W` by `DECRULE` at the old counter, then the advance (R114). -/
theorem step_dec {s : State} (hr : s.released 1) (hp : s.phase = .dec) (hc : s.ctr ≠ 0) (hk : s.kv = true)
    (hb : s.bv = true) :
    step s = .next (({ s with rstLine := s.rstLine.tail } : State).putBlock (decRule fRom s.key s.w s.ctr)).advance := by
  rw [step_busy hr (State.rsel_of_dec hp)]
  have hround : s.phase ≠ .idle := by simp [hp]
  have hexec := (exec_roundSelect_dec { s with rstLine := s.rstLine.tail }).trans
    (State.applyRule_of_round _ hround hc hk hb)
  exact congrArg (mapNext State.advance) hexec

/-! ### The block during a transform -/

/-- Released for `m + n` steps is released for `n` steps after the first `m`. -/
theorem State.released_drop {s : State} {m n : Nat} (h : s.released (m + n)) :
    ∀ b ∈ (s.rstLine.drop m).take n, b = false := by
  intro b hb
  rw [List.take_drop] at hb
  exact h b (List.mem_of_mem_drop hb)

/-- A step after a run is a run of one step more. -/
theorem runSteps_succ {n : Nat} {s t : State} (h : runSteps n s = .next t) : runSteps (n + 1) s = step t := by
  rw [runSteps_add, h]
  show runSteps 1 t = step t
  unfold runSteps
  cases step t <;> rfl

/-- `n` rounds after an `ENC` accepted in `s` that left the words `rest` at the port (spec/10_state.md R32 (e)). -/
def State.afterEncRounds (s : State) (rest : List CmdWord) (n : Nat) : State :=
  { s with
    host := rest
    rstLine := s.rstLine.drop (n + 1)
    phase := .enc
    ctr := Fin.ofNat 33 (n + 1)
    w := encRounds fRom s.key s.w n }

/-- `n` rounds after a `DEC` accepted in `s` that left the words `rest` at the port (R32 (e)). -/
def State.afterDecRounds (s : State) (rest : List CmdWord) (n : Nat) : State :=
  { s with
    host := rest
    rstLine := s.rstLine.drop (n + 1)
    phase := .dec
    ctr := Fin.ofNat 33 (32 - n)
    w := decRounds fRom s.key s.w n }

section
variable {s : State} {rest : List CmdWord} {n : Nat}

theorem step_afterEncRounds (hr : s.released (n + 2)) (hk : s.kv = true) (hb : s.bv = true) (hn : n + 1 < 32) :
    step (s.afterEncRounds rest n) = .next (s.afterEncRounds rest (n + 1)) := by
  have hzero : (Fin.ofNat 33 (n + 1) : Counter) ≠ 0 :=
    counter_ofNat_ne (by omega) (show n + 1 ≠ 0 by omega)
  have hlast : (Fin.ofNat 33 (n + 1) : Counter) ≠ 32 :=
    counter_ofNat_ne (by omega) (show n + 1 ≠ 32 by omega)
  have hnext : (Fin.ofNat 33 (n + 1) : Counter) + 1 = Fin.ofNat 33 (n + 2) :=
    Fin.ext (by simp only [Fin.val_add, Fin.val_ofNat, Fin.val_one]; omega)
  rw [step_enc (s := s.afterEncRounds rest n) (State.released_drop hr) rfl hzero hk hb, State.advance_enc rfl hlast]
  simp only [State.afterEncRounds, State.putBlock, State.start, encRounds, hnext, List.tail_drop]

theorem step_afterDecRounds (hr : s.released (n + 2)) (hk : s.kv = true) (hb : s.bv = true) (hn : n + 1 < 32) :
    step (s.afterDecRounds rest n) = .next (s.afterDecRounds rest (n + 1)) := by
  have hzero : (Fin.ofNat 33 (32 - n) : Counter) ≠ 0 :=
    counter_ofNat_ne (by omega) (show 32 - n ≠ 0 by omega)
  have hlast : (Fin.ofNat 33 (32 - n) : Counter) ≠ 1 :=
    counter_ofNat_ne (by omega) (show 32 - n ≠ 1 by omega)
  have hnext : (Fin.ofNat 33 (32 - n) : Counter) - 1 = Fin.ofNat 33 (32 - (n + 1)) :=
    Fin.ext (by simp only [Fin.val_sub, Fin.val_ofNat, Fin.val_one]; omega)
  rw [step_dec (s := s.afterDecRounds rest n) (State.released_drop hr) rfl hzero hk hb, State.advance_dec rfl hlast]
  simp only [State.afterDecRounds, State.putBlock, State.start, decRounds, hnext, List.tail_drop, Config.rounds]

theorem exec_enc_of_loaded {s : State} (hp : s.phase = .idle) (hk : s.kv = true) (hb : s.bv = true) :
    exec .enc s = .next (s.start .enc 1) :=
  (State.whenReady_of_idle hp _).trans ((State.whenKey_of_loaded hk _).trans (State.whenBlock_of_loaded hb _))

theorem exec_dec_of_loaded {s : State} (hp : s.phase = .idle) (hk : s.kv = true) (hb : s.bv = true) :
    exec .dec s = .next (s.start .dec 32) :=
  (State.whenReady_of_idle hp _).trans ((State.whenKey_of_loaded hk _).trans (State.whenBlock_of_loaded hb _))

/-- An accepted `ENC` (spec/44_host_commands.md R129). -/
theorem step_encCommand (hr : s.released 1) (hp : s.phase = .idle) (hc : s.call = none) (hk : s.kv = true)
    (hb : s.bv = true) (hh : s.host = 0x0400000000000000000000 :: rest) :
    step s = .next (s.afterEncRounds rest 0) := by
  have hdecode : decodeCommand 0x0400000000000000000000 = .ok .enc := by decide
  rw [step_command hr hp hc hh, hdecode, ← List.drop_one]
  exact exec_enc_of_loaded (s := { s with rstLine := s.rstLine.drop 1, host := rest }) hp hk hb

/-- An accepted `DEC` (R130). -/
theorem step_decCommand (hr : s.released 1) (hp : s.phase = .idle) (hc : s.call = none) (hk : s.kv = true)
    (hb : s.bv = true) (hh : s.host = 0x0500000000000000000000 :: rest) :
    step s = .next (s.afterDecRounds rest 0) := by
  have hdecode : decodeCommand 0x0500000000000000000000 = .ok .dec := by decide
  rw [step_command hr hp hc hh, hdecode, ← List.drop_one]
  exact exec_dec_of_loaded (s := { s with rstLine := s.rstLine.drop 1, host := rest }) hp hk hb

theorem runSteps_afterEncRounds (hn : n < 32) (hr : s.released (n + 1)) (hk : s.kv = true) (hb : s.bv = true)
    (h : step s = .next (s.afterEncRounds rest 0)) : runSteps (n + 1) s = .next (s.afterEncRounds rest n) := by
  induction n with
  | zero => exact (runSteps_succ rfl).trans h
  | succ n ih =>
    rw [runSteps_succ (ih (by omega) (State.released_of_add hr))]
    exact step_afterEncRounds hr hk hb hn

theorem runSteps_afterDecRounds (hn : n < 32) (hr : s.released (n + 1)) (hk : s.kv = true) (hb : s.bv = true)
    (h : step s = .next (s.afterDecRounds rest 0)) : runSteps (n + 1) s = .next (s.afterDecRounds rest n) := by
  induction n with
  | zero => exact (runSteps_succ rfl).trans h
  | succ n ih =>
    rw [runSteps_succ (ih (by omega) (State.released_of_add hr))]
    exact step_afterDecRounds hr hk hb hn

end

/-- Settles O39, by induction on the rounds after the accepted command. -/
theorem blockDuringATransform : Obligations.BlockDuringATransform := by
  intro s c rest n hn hr hp hc hk hb hh
  have hr1 : s.released 1 := State.released_of_add (n := n) (by rwa [Nat.add_comm])
  refine ⟨?_, ?_⟩
  · rintro rfl
    exact runSteps_afterEncRounds hn hr hk hb (step_encCommand hr1 hp hc hk hb hh)
  · rintro rfl
    exact runSteps_afterDecRounds hn hr hk hb (step_decCommand hr1 hp hc hk hb hh)

/-! ### What no step reads

`State.blot` blots out what a step must not read: the contents of unwritten registers, the record of internal results,
or both. A blotted state has the same guards, fetches the same action, and reads the same operands wherever a guard lets
it read them; so a step from it ends in the same state but for what is blotted. -/

/-- The state with unwritten contents blotted out if `contents`, and the record of results if `record`. -/
def State.blot (contents record : Bool) (s : State) : State :=
  { s with
    key := if contents && !s.kv then Config.resetKey else s.key
    w := if contents && !s.bv then Config.resetBlock else s.w
    results := if record then [] else s.results }

theorem State.masked_eq_blot (s : State) : s.masked = s.blot true false := by
  cases hk : s.kv <;> cases hb : s.bv <;> simp [State.masked, State.blot, hk, hb]

section
variable {contents record : Bool} (s : State)

@[simp] theorem State.blot_phase : (s.blot contents record).phase = s.phase := rfl
@[simp] theorem State.blot_ctr : (s.blot contents record).ctr = s.ctr := rfl

theorem State.blot_key_of_loaded {s : State} (h : s.kv = true) : (s.blot contents record).key = s.key := by
  simp [State.blot, h]

theorem State.blot_w_of_loaded {s : State} (h : s.bv = true) : (s.blot contents record).w = s.w := by
  simp [State.blot, h]

/-! No update brings back what was blotted. -/

theorem State.blot_loadKey (k : Key) :
    ((s.blot contents record).loadKey k).blot contents record = (s.loadKey k).blot contents record := by
  cases contents <;> cases record <;> cases hb : s.bv <;> simp [State.blot, State.loadKey, hb]

theorem State.blot_loadBlock (b : Block) :
    ((s.blot contents record).loadBlock b).blot contents record = (s.loadBlock b).blot contents record := by
  cases contents <;> cases record <;> cases hk : s.kv <;> simp [State.blot, State.loadBlock, hk]

theorem State.blot_putBlock (b : Block) :
    ((s.blot contents record).putBlock b).blot contents record = (s.putBlock b).blot contents record := by
  cases contents <;> cases record <;> cases hk : s.kv <;> simp [State.blot, State.putBlock, hk]

theorem State.blot_blot : (s.blot contents record).blot contents record = s.blot contents record := by
  cases contents <;> cases record <;> cases hk : s.kv <;> cases hb : s.bv <;> simp [State.blot, hk, hb]

theorem State.blot_emit (v : Dout) :
    ((s.blot contents record).emit v).blot contents record = (s.emit v).blot contents record :=
  congrArg (State.emit · v) s.blot_blot

theorem State.blot_start (p : Phase) (c : Counter) :
    ((s.blot contents record).start p c).blot contents record = (s.start p c).blot contents record :=
  congrArg (State.start · p c) s.blot_blot

theorem State.blot_record (v : UnitResult) :
    ((s.blot contents record).record v).blot contents record = (s.record v).blot contents record := by
  cases record with
  | false => exact congrArg (State.record · v) s.blot_blot
  | true => exact State.blot_blot (record := true) (s.record v)

theorem State.blot_advance : s.advance.blot contents record = (s.blot contents record).advance := by
  simp only [State.advance, State.blot_phase, State.blot_ctr]
  cases s.phase with
  | idle => rfl
  | enc => exact apply_ite (State.blot contents record) (s.ctr = 32) _ _
  | dec => exact apply_ite (State.blot contents record) (s.ctr = 1) _ _

end

/-- Two outcomes that are the same but for what is blotted out of their next states. -/
abbrev SameBlotted (contents record : Bool) (o o' : Result) : Prop :=
  mapNext (State.blot contents record) o = mapNext (State.blot contents record) o'

/-! A guard answers alike on a blotted state, if what it guards does wherever it lets it through. -/

section
variable {contents record : Bool} {s : State} {o o' : Result}

theorem SameBlotted.guard {c : Prop} [Decidable c] {r : Refusal} (h : c → SameBlotted contents record o o') :
    SameBlotted contents record (if c then o else .refused r) (if c then o' else .refused r) := by
  by_cases hc : c
  · simpa [hc] using h hc
  · simp [hc]

theorem State.whenReady_blot (h : SameBlotted contents record o o') :
    SameBlotted contents record ((s.blot contents record).whenReady o) (s.whenReady o') :=
  SameBlotted.guard (c := s.phase = .idle) fun _ => h

theorem State.whenRound_blot (h : SameBlotted contents record o o') :
    SameBlotted contents record ((s.blot contents record).whenRound o) (s.whenRound o') :=
  SameBlotted.guard (c := s.phase ≠ .idle ∧ s.ctr ≠ 0) fun _ => h

theorem State.whenKey_blot (h : s.kv = true → SameBlotted contents record o o') :
    SameBlotted contents record ((s.blot contents record).whenKey o) (s.whenKey o') :=
  SameBlotted.guard h

theorem State.whenBlock_blot (h : s.bv = true → SameBlotted contents record o o') :
    SameBlotted contents record ((s.blot contents record).whenBlock o) (s.whenBlock o') :=
  SameBlotted.guard h

/-- A stepping rule reads `KEY` and `W` behind both marks. -/
theorem State.applyRule_blot (rule : Key → Block → Counter → Block) :
    SameBlotted contents record ((s.blot contents record).applyRule rule) (s.applyRule rule) :=
  State.whenRound_blot <| State.whenKey_blot fun hk => State.whenBlock_blot fun hb => by
    rw [State.blot_key_of_loaded hk, State.blot_w_of_loaded hb]
    exact congrArg Host.Outcome.next (s.blot_putBlock _)

end

section
variable (contents record : Bool)

theorem sameBlotted_record (s : State) (v : UnitResult) :
    SameBlotted contents record (.next ((s.blot contents record).record v)) (.next (s.record v)) :=
  congrArg Host.Outcome.next (s.blot_record v)

/-- No instruction reads what is blotted out. -/
theorem exec_blot (i : Instr) (s : State) :
    SameBlotted contents record (exec i (s.blot contents record)) (exec i s) := by
  cases i with
  | ldkey k => exact State.whenReady_blot (congrArg Host.Outcome.next (s.blot_loadKey k))
  | ldblk b => exact State.whenReady_blot (congrArg Host.Outcome.next (s.blot_loadBlock b))
  | rdblk =>
    refine State.whenReady_blot <| State.whenBlock_blot fun hb => ?_
    rw [State.blot_w_of_loaded hb]
    exact congrArg Host.Outcome.next (s.blot_emit _)
  | enc =>
    exact State.whenReady_blot <| State.whenKey_blot fun _ => State.whenBlock_blot fun _ =>
      congrArg Host.Outcome.next (s.blot_start _ _)
  | dec =>
    exact State.whenReady_blot <| State.whenKey_blot fun _ => State.whenBlock_blot fun _ =>
      congrArg Host.Outcome.next (s.blot_start _ _)
  | stepA => exact State.applyRule_blot _
  | stepB => exact State.applyRule_blot _
  | stepAinv => exact State.applyRule_blot _
  | stepBinv => exact State.applyRule_blot _
  | g step hi lo =>
    refine State.whenRound_blot <| State.whenKey_blot fun hk => ?_
    rw [State.blot_key_of_loaded hk]
    exact sameBlotted_record contents record s _
  | ginv step hi lo =>
    refine State.whenRound_blot <| State.whenKey_blot fun hk => ?_
    rw [State.blot_key_of_loaded hk]
    exact sameBlotted_record contents record s _
  | w2b w => exact sameBlotted_record contents record s _
  | b2w hi lo => exact sameBlotted_record contents record s _
  | flookup a => exact sameBlotted_record contents record s _
  | keysel step n => exact sameBlotted_record contents record s _

variable {contents record}

/-- The advance of a round reads nothing that is blotted out. -/
theorem SameBlotted.advance {o o' : Result} (h : SameBlotted contents record o o') :
    SameBlotted contents record (mapNext State.advance o) (mapNext State.advance o') := by
  have hcomm (o : Result) : mapNext (State.blot contents record) (mapNext State.advance o)
      = mapNext State.advance (mapNext (State.blot contents record) o) := by
    cases o with
    | next t => exact congrArg Host.Outcome.next t.blot_advance
    | fault f => rfl
    | refused r => rfl
  exact (hcomm o).trans ((congrArg (mapNext State.advance) h).trans (hcomm o').symm)

variable (contents record)

/-- No step reads what is blotted out: a blotted state is in the same situation, and its instruction does the same. -/
theorem step_blot (s : State) : SameBlotted contents record (step (s.blot contents record)) (step s) := by
  obtain ⟨rest, hl⟩ | ⟨hr, ⟨r, hsel⟩ | ⟨hp, ⟨u, hu⟩ | ⟨hc, ⟨c, rest, hh⟩ | hh⟩⟩⟩ := s.situations
  · rw [step_reset hl, step_reset (s := s.blot contents record) hl]
    rfl
  · rw [step_busy hr hsel, step_busy (s := s.blot contents record) hr hsel]
    exact (exec_blot contents record _ { s with rstLine := s.rstLine.tail }).advance
  · rw [step_call hr hp hu, step_call (s := s.blot contents record) hr hp hu]
    exact exec_blot contents record _ { s with rstLine := s.rstLine.tail, call := none }
  · rw [step_command hr hp hc hh, step_command (s := s.blot contents record) hr hp hc hh]
    cases decodeCommand c with
    | ok i => exact exec_blot contents record i { s with rstLine := s.rstLine.tail, host := rest }
    | error e => rfl
  · rw [step_idle hr hp hc hh, step_idle (s := s.blot contents record) hr hp hc hh]
    exact congrArg Host.Outcome.next (State.blot_blot { s with rstLine := s.rstLine.tail })

variable {contents record}

/-- States that are the same but for what is blotted out step alike. -/
theorem step_congr_blot {s s' : State} (h : s.blot contents record = s'.blot contents record) :
    SameBlotted contents record (step s) (step s') :=
  (step_blot contents record s).symm.trans (h ▸ step_blot contents record s')

theorem mapNext_eq_refused {f : State → State} {o : Result} {r : Refusal} (h : mapNext f o = .refused r) :
    o = .refused r := by
  cases o with
  | next u => cases h
  | fault x => cases h
  | refused q => exact h

/-- States that are the same but for what is blotted out run alike. -/
theorem runSteps_congr_blot (n : Nat) {s s' : State} (h : s.blot contents record = s'.blot contents record) :
    SameBlotted contents record (runSteps n s) (runSteps n s') := by
  induction n generalizing s s' with
  | zero => exact congrArg Host.Outcome.next h
  | succ n ih =>
    have hstep := step_congr_blot h
    simp only [runSteps]
    cases hs : step s with
    | next t =>
      rw [hs] at hstep
      obtain ⟨t', ht', heq⟩ := mapNext_eq_next hstep.symm
      rw [ht']
      exact ih heq
    | fault f => exact nomatch f
    | refused r =>
      rw [hs] at hstep
      rw [mapNext_eq_refused hstep.symm]

end

/-- Settles O46: clearing the record is blotting out the record alone. -/
theorem resultsAreNeverRead : Obligations.ResultsAreNeverRead := fun _ _ =>
  step_congr_blot (contents := false) (record := true) rfl

/-- Settles O47: masking is blotting out the unwritten contents alone. -/
theorem unwrittenContentsAreUnobservable : Obligations.UnwrittenContentsAreUnobservable := by
  intro n s1 s2 h
  have hmask : State.masked = State.blot true false := funext State.masked_eq_blot
  rw [hmask] at h ⊢
  exact runSteps_congr_blot n h

end Sys2Proof.Machine
end

section
/-! PROOFS of the family 30_encoding: the decoder and the encoder are inverse to each other, what the command port
accepts, the layouts of the arguments, and the signals that need a round (spec/30_encoding.md). -/

namespace Sys2Proof

/-! ### Internal wires: each format and its fields (R64 to R66) -/

theorem encode_decodeRoundSelect : ∀ r : BitVec 2, encode (decodeRoundSelect r) = .roundSelect r := by decide

/-- The fields of a bundle, by the table of R65. -/
theorem gBundle_fields (inv : BitVec 1) (step : Step) (hi lo : Byte) :
    (gBundle inv step hi lo).extractLsb' 21 1 = inv ∧ (gBundle inv step hi lo).extractLsb' 16 5 = step
    ∧ (gBundle inv step hi lo).extractLsb' 8 8 = hi ∧ (gBundle inv step hi lo).extractLsb' 0 8 = lo := by
  let x : BitVec (1 + 5 + 8 + 8) := inv ++ step ++ hi ++ lo
  have h : x.extractLsb' 21 1 = inv ∧ x.extractLsb' 16 5 = step ∧ x.extractLsb' 8 8 = hi
      ∧ x.extractLsb' 0 8 = lo := by
    simp only [x, extract_append_of_ge, extract_append_right, extract_all, Nat.reduceLeDiff, Nat.reduceSub, and_self]
  exact h

/-- A bundle is its four fields. -/
theorem gBundle_of_fields (b : BitVec 22) :
    gBundle (b.extractLsb' 21 1) (b.extractLsb' 16 5) (b.extractLsb' 8 8) (b.extractLsb' 0 8) = b := by
  have h : b.extractLsb' 21 1 ++ b.extractLsb' 16 5 ++ b.extractLsb' 8 8 ++ b.extractLsb' 0 8 = b := by
    rw [extract_join (a := 21) (l := 16) b rfl, extract_join (a := 16) (l := 8) b rfl,
      extract_join (a := 8) (l := 0) b rfl]
    exact extract_all b
  exact h

/-- Bit 21 of a bundle, `inv`, tells `GINV` from `G`. -/
theorem decodeGBundle_gBundle (inv : BitVec 1) (step : Step) (hi lo : Byte) :
    decodeGBundle (gBundle inv step hi lo) = if inv = 0 then .g step hi lo else .ginv step hi lo := by
  obtain ⟨hinv, hstep, hhi, hlo⟩ := gBundle_fields inv step hi lo
  simp only [decodeGBundle, hinv, hstep, hhi, hlo]

theorem encode_decodeGBundle (b : BitVec 22) : encode (decodeGBundle b) = .gBundle b := by
  rw [← gBundle_of_fields b, decodeGBundle_gBundle]
  obtain h | h := BitVec.eq_zero_or_eq_one (b.extractLsb' 21 1)
  · rw [h]; rfl
  · rw [h]; rfl

theorem encode_decodeUnitCall (u : UnitCall) : encode (decodeUnitCall u) = .unitCall u := by
  cases u with
  | w2b x => rfl
  | flookup x => rfl
  | b2w x =>
    have h : x.extractLsb' 8 8 ++ x.extractLsb' 0 8 = x := (extract_join x rfl).trans (extract_all x)
    simp only [decodeUnitCall, encode, h]
  | keysel x =>
    have h : x.extractLsb' 2 5 ++ x.extractLsb' 0 2 = x := (extract_join x rfl).trans (extract_all x)
    simp only [decodeUnitCall, encode, h]

/-! ### Command words (R61 to R63, R70) -/

/-- A command word given by its opcode and its argument. -/
theorem CmdWord.mk_eq_of {c : CmdWord} {op : Byte} {arg : Arg} (hop : c.op = op) (harg : c.arg = arg) :
    CmdWord.mk op arg = c := by
  rw [← hop, ← harg, CmdWord.mk_op_arg]

/-- An argument of `LDBLK` is its must-be-zero bits and a block (R63). -/
theorem Arg.eq_append (a : Arg) : a.extractLsb' 64 16 ++ (Block.ofDout (a.extractLsb' 0 64)).toDout = a := by
  rw [Block.toDout_ofDout]
  exact (extract_join (a := 64) (l := 0) a rfl).trans (extract_all a)

theorem decodeCommand_ldkey (arg : Arg) : decodeCommand (CmdWord.mk 0x01 arg) = .ok (.ldkey (Key.ofArg arg)) := by
  simp [decodeCommand]

theorem decodeCommand_ldblk (d : Dout) :
    decodeCommand (CmdWord.mk 0x02 ((0 : BitVec 16) ++ d)) = .ok (.ldblk (Block.ofDout d)) := by
  have hzero : ((0 : BitVec 16) ++ d : Arg).extractLsb' 64 16 = 0 := extract_append_left _ _
  have hblock : ((0 : BitVec 16) ++ d : Arg).extractLsb' 0 64 = d := extract_append_right _ _
  simp only [decodeCommand, CmdWord.mk_op, CmdWord.mk_arg, hzero, hblock]
  rfl

/-- The right answers of a decoder to the command word `c`: the instruction whose encoding `c` is, or an error if `c` is
reserved (R70). -/
def CmdWord.RightAnswer (c : CmdWord) (o : Except DecodeError Instr) : Prop :=
  (∃ i, o = .ok i ∧ encode i = .command c) ∨ (∃ e, o = .error e) ∧ Machine.reservedCommand c

/-- The check of a command without operands: all of its argument must be zero. -/
theorem CmdWord.rightAnswer_bare {c : CmdWord} {op : Byte} {i : Instr} (hop : c.op = op)
    (hbare : op = 0x03 ∨ op = 0x04 ∨ op = 0x05) (hi : encode i = .command (CmdWord.mk op 0)) :
    c.RightAnswer (if c.arg = 0 then .ok i else .error (.mustBeZero c.op)) := by
  subst hop
  split
  case isTrue harg => exact .inl ⟨i, rfl, hi.trans (congrArg RawWord.command (CmdWord.mk_eq_of rfl harg))⟩
  case isFalse harg => exact .inr ⟨⟨_, rfl⟩, .inr (.inr ⟨hbare, harg⟩)⟩

/-- The check of `LDBLK`: the upper 16 bits of its argument must be zero. -/
theorem CmdWord.rightAnswer_ldblk {c : CmdWord} (hop : c.op = 0x02) :
    c.RightAnswer (if c.arg.extractLsb' 64 16 = 0 then .ok (.ldblk (Block.ofDout (c.arg.extractLsb' 0 64)))
      else .error (.mustBeZero c.op)) := by
  have hmbz : c.arg.extractLsb' 64 16 = c.extractLsb' 64 16 := extract_extract c (by decide)
  split
  case isTrue harg =>
    refine .inl ⟨_, rfl, congrArg RawWord.command (CmdWord.mk_eq_of hop ?_)⟩
    rw [← harg, Arg.eq_append]
  case isFalse harg => exact .inr ⟨⟨_, rfl⟩, .inr (.inl ⟨hop, hmbz ▸ harg⟩)⟩

/-- What the decoder can do with a command word, opcode by opcode. -/
theorem decodeCommand_rightAnswer (c : CmdWord) : c.RightAnswer (decodeCommand c) := by
  unfold decodeCommand
  refine iteInduction (fun h1 => ?ldkey) fun h1 => iteInduction CmdWord.rightAnswer_ldblk fun h2 =>
    iteInduction (fun h3 => ?rdblk) fun h3 => iteInduction (fun h4 => ?enc) fun h4 =>
    iteInduction (fun h5 => ?dec) fun h5 => ?reserved
  case ldkey =>
    exact .inl ⟨_, rfl, congrArg RawWord.command (CmdWord.mk_eq_of h1 (Key.toArg_ofArg c.arg).symm)⟩
  case rdblk => exact CmdWord.rightAnswer_bare h3 (.inl rfl) rfl
  case enc => exact CmdWord.rightAnswer_bare h4 (.inr (.inl rfl)) rfl
  case dec => exact CmdWord.rightAnswer_bare h5 (.inr (.inr rfl)) rfl
  case reserved => exact .inr ⟨⟨_, rfl⟩, .inl ⟨h1, h2, h3, h4, h5⟩⟩

/-! ### Decoding and encoding -/

/-- Settles O1, instruction by instruction: the fields of each layout are the operands it was built from. -/
theorem decodeEncodeEveryInstruction : Obligations.DecodeEncodeEveryInstruction := by
  intro i
  cases i with
  | ldkey k => exact (decodeCommand_ldkey _).trans (by rw [Key.ofArg_toArg])
  | ldblk b => exact (decodeCommand_ldblk _).trans (by rw [Block.ofDout_toDout])
  | rdblk => rfl
  | enc => rfl
  | dec => rfl
  | stepA => rfl
  | stepB => rfl
  | stepAinv => rfl
  | stepBinv => rfl
  | g step hi lo => exact congrArg Except.ok (decodeGBundle_gBundle 0 step hi lo)
  | ginv step hi lo => exact congrArg Except.ok (decodeGBundle_gBundle 1 step hi lo)
  | w2b w => rfl
  | b2w hi lo =>
    simp only [decode, encode, decodeUnitCall, extract_append_left, extract_append_right]
  | flookup a => rfl
  | keysel step i =>
    simp only [decode, encode, decodeUnitCall, extract_append_left, extract_append_right]

/-- Settles O2, format by format: the fields of a raw word make the raw word again. -/
theorem encodeDecodeEveryWord : Obligations.EncodeDecodeEveryWord := by
  intro r i h
  cases r with
  | command c =>
    obtain ⟨j, hj, hc⟩ | ⟨⟨e, he⟩, -⟩ := decodeCommand_rightAnswer c
    · cases hj.symm.trans h
      exact hc
    · cases he.symm.trans h
  | roundSelect r => cases h; exact encode_decodeRoundSelect r
  | gBundle b => cases h; exact encode_decodeGBundle b
  | unitCall u => cases h; exact encode_decodeUnitCall u

/-- An encoded instruction is no reserved encoding (R70). -/
theorem encode_wellFormed (i : Instr) : (encode i).wellFormed = true := by
  cases i with
  | ldkey k => exact Laws.Encoding.ldkey k
  | ldblk b => exact Laws.Encoding.ldblk b
  | rdblk => exact Laws.Encoding.rdblk
  | enc => exact Laws.Encoding.enc
  | dec => exact Laws.Encoding.dec
  | stepA => exact Laws.Encoding.stepA
  | stepB => exact Laws.Encoding.stepB
  | stepAinv => exact Laws.Encoding.stepAinv
  | stepBinv => exact Laws.Encoding.stepBinv
  | g step hi lo => exact Laws.Encoding.g step hi lo
  | ginv step hi lo => exact Laws.Encoding.ginv step hi lo
  | w2b w => exact Laws.Encoding.w2b w
  | b2w hi lo => exact Laws.Encoding.b2w hi lo
  | flookup a => exact Laws.Encoding.flookup a
  | keysel step i => exact Laws.Encoding.keysel step i

/-- The well-formed command words are those that are not reserved: `CmdWord.wellFormed` and R70 say the same, opcode by
opcode. -/
theorem CmdWord.wellFormed_iff (c : CmdWord) : c.wellFormed = true ↔ ¬ Machine.reservedCommand c := by
  simp only [CmdWord.wellFormed, Machine.reservedCommand, Bool.or_eq_true, Bool.and_eq_true, beq_iff_eq]
  by_cases h1 : c.extractLsb' 80 8 = 0x01
  · simp [h1]
  by_cases h2 : c.extractLsb' 80 8 = 0x02
  · simp [h2]
  by_cases hbare : c.extractLsb' 80 8 = 0x03 ∨ c.extractLsb' 80 8 = 0x04 ∨ c.extractLsb' 80 8 = 0x05
  · obtain h | h | h := hbare <;> simp [h]
  · tauto

/-- A reserved word does not decode. -/
theorem decodeCommand_of_reserved {c : CmdWord} (hc : Machine.reservedCommand c) : ∃ e, decodeCommand c = .error e := by
  obtain ⟨i, -, hi⟩ | ⟨he, -⟩ := decodeCommand_rightAnswer c
  · have hwf : (RawWord.command c).wellFormed = true := hi ▸ encode_wellFormed i
    exact absurd hc (c.wellFormed_iff.mp hwf)
  · exact he

/-- A word that is not reserved decodes. -/
theorem decodeCommand_of_not_reserved {c : CmdWord} (hc : ¬ Machine.reservedCommand c) :
    ∃ i, decodeCommand c = .ok i ∧ encode i = .command c :=
  (decodeCommand_rightAnswer c).resolve_right fun h => hc h.2

/-- Settles O3: what decodes is an encoding, so it is well-formed; and a command word that is not reserved decodes. -/
theorem decoderAcceptsExactlyWellFormed : Obligations.DecoderAcceptsExactlyWellFormed := by
  intro r
  refine ⟨fun ⟨i, hi⟩ => encodeDecodeEveryWord r i hi ▸ encode_wellFormed i, fun hr => ?_⟩
  cases r with
  | command c =>
    obtain ⟨i, hi, -⟩ := decodeCommand_of_not_reserved (c.wellFormed_iff.mp hr)
    exact ⟨i, hi⟩
  | roundSelect r => exact ⟨_, rfl⟩
  | gBundle b => exact ⟨_, rfl⟩
  | unitCall u => exact ⟨_, rfl⟩

/-- Settles O4: the step of a reserved word is the decoder's error, and only the five commands encode to a command
word. -/
theorem reservedCommandsAreRefused : Obligations.ReservedCommandsAreRefused := by
  intro c
  refine ⟨fun hc s rest hp hcall hr hh => ?_, fun hc => ?_⟩
  · obtain ⟨e, he⟩ := decodeCommand_of_reserved hc
    exact ⟨e, by rw [Machine.step_command hr hp hcall hh, he]⟩
  · obtain ⟨i, hi, henc⟩ := decodeCommand_of_not_reserved hc
    cases i with
    | ldkey k => exact .inl ⟨k, hi⟩
    | ldblk b => exact .inr (.inl ⟨b, hi⟩)
    | rdblk => exact .inr (.inr (.inl hi))
    | enc => exact .inr (.inr (.inr (.inl hi)))
    | dec => exact .inr (.inr (.inr (.inr hi)))
    | _ => cases henc

/-! ### Layouts and words of the tables -/

/-- Byte `i` of the key an argument carries (R62). -/
theorem Key.ofArg_get (a : Arg) (i : Fin 10) : (Key.ofArg a).get i = a.extractLsb' (72 - 8 * i.val) 8 := by
  fin_cases i <;> rfl

/-- Settles O6. -/
theorem ldkeyArgumentLayout : Obligations.LdkeyArgumentLayout :=
  ⟨fun arg => ⟨Key.ofArg arg, decodeCommand_ldkey arg, Key.ofArg_get arg⟩, by decide⟩

/-- Settles O7. -/
theorem blockArgumentLayout : Obligations.BlockArgumentLayout := fun d =>
  ⟨Block.ofDout d, decodeCommand_ldblk d, rfl, rfl, rfl, rfl, Block.toDout_ofDout d⟩

/-- Settles O5: each is the decoder run on one concrete word. -/
theorem tableWordsDecode : Obligations.TableWordsDecode := by
  refine ⟨?_, ?_, ?_, ?_, ?_, ?_, ?_, ?_, ?_, ?_, ?_⟩ <;> rfl

end Sys2Proof

namespace Sys2Proof.Machine

/-! ### The counter operand (R69) -/

theorem c16_toNat (c : Counter) : (c16 c).toNat = c.val :=
  BitVec.toNat_ofNat .. ▸ Nat.mod_eq_of_lt (by omega)

/-- A counter has six bits. -/
theorem c16_high_bits : ∀ c : Counter, (c16 c).extractLsb' 6 10 = 0 := by decide

/-- Settles O11: XOR acts bit by bit, and the upper ten bits of the operand are zero. -/
theorem counterOperandIsZeroExtended : Obligations.CounterOperandIsZeroExtended := by
  refine fun c => ⟨c16_toNat c, fun w => ?_⟩
  rw [BitVec.extractLsb'_xor, c16_high_bits]
  exact BitVec.xor_zero

/-! ### Signals and operations that need a round (R64, R65, R71) -/

theorem State.whenRound_of_idle {s : State} (h : s.phase = .idle) (o : Result) :
    s.whenRound o = .refused .noRoundInProgress := by
  simp [State.whenRound, h]

/-- Settles O31: the four stepping rules have the guard of a round. -/
theorem steppingRulesNeedARound : Obligations.SteppingRulesNeedARound := by
  refine fun s hp => ⟨State.rsel_of_idle hp, fun i hi => ?_⟩
  cases i with
  | stepA => exact State.whenRound_of_idle hp _
  | stepB => exact State.whenRound_of_idle hp _
  | stepAinv => exact State.whenRound_of_idle hp _
  | stepBinv => exact State.whenRound_of_idle hp _
  | _ => cases hi

/-- An instruction fetched outside a round was read from an internal call or from the command port. -/
theorem State.encode_of_fetchReleased_run {s t : State} {i : Instr} (h : s.fetchReleased = .run i t) :
    (∃ u, encode i = .unitCall u) ∨ ∃ c, encode i = .command c := by
  unfold State.fetchReleased at h
  split at h
  · cases h
  · next u _ _ =>
    cases h
    exact .inl ⟨u, encode_decodeUnitCall u⟩
  · next c rest _ _ _ =>
    unfold fetchCommand at h
    split at h
    · next j hj =>
      cases h
      exact .inr ⟨c, encodeDecodeEveryWord (.command c) i hj⟩
    · cases h
  · cases h

theorem State.encode_of_fetch_run {s t : State} {i : Instr} (h : s.fetch = .run i t) :
    (∃ u, encode i = .unitCall u) ∨ ∃ c, encode i = .command c := by
  unfold State.fetch at h
  split at h
  · cases h
  · exact State.encode_of_fetchReleased_run h

/-- Settles O50: `G` and `GINV` have the guard of a round, and neither is encoded on the wires a step of `IDLE` reads. -/
theorem bundlesNeedARound : Obligations.BundlesNeedARound := by
  refine fun s hp => ⟨State.gop_of_idle hp, fun step hi lo => ?_, fun i t h => ?_⟩
  · exact ⟨State.whenRound_of_idle hp _, State.whenRound_of_idle hp _⟩
  · have hwires := State.encode_of_fetch_run h
    refine ⟨?_, ?_⟩
    · rintro step hi lo rfl
      simp [encode] at hwires
    · rintro step hi lo rfl
      simp [encode] at hwires

end Sys2Proof.Machine
end

section
/-! PROOFS of the family 40_table_and_conversion: the conversions as bit fields, the key-index pattern, the table as a
permutation, and the operations that need no selector (spec/40_table_and_conversion.md). -/

namespace Sys2Proof.Machine

/-! ### W2B and B2W (R81 to R83) -/

/-- `hi = w[15:8]` and `lo = w[7:0]` (R81). -/
theorem wordToBytes_eq_fields (w : Word) : wordToBytes w = (w.extractLsb' 8 8, w.extractLsb' 0 8) := by
  have hhi : (w >>> 8).setWidth 8 = w.extractLsb' 8 8 := BitVec.setWidth_ushiftRight_eq_extractLsb
  have hmask : (0xFF : Word).setWidth 8 = BitVec.allOnes 8 := rfl
  have hlo : (w &&& 0xFF).setWidth 8 = w.extractLsb' 0 8 := by
    rw [BitVec.setWidth_and, hmask, BitVec.and_allOnes, BitVec.setWidth_eq_extractLsb' (by decide)]
  rw [wordToBytes, hhi, hlo]

/-- The word `hi` followed by `lo` (R82). -/
theorem bytesToWord_eq_append (hi lo : Byte) : bytesToWord hi lo = hi ++ lo := by
  rw [BitVec.append_def, BitVec.shiftLeftZeroExtend_eq, BitVec.setWidth'_eq]
  rfl

@[simp] theorem bytesToWord_wordToBytes (w : Word) : bytesToWord (wordToBytes w).1 (wordToBytes w).2 = w := by
  rw [wordToBytes_eq_fields, bytesToWord_eq_append]
  exact (extract_join w rfl).trans (extract_all w)

@[simp] theorem wordToBytes_bytesToWord (hi lo : Byte) : wordToBytes (bytesToWord hi lo) = (hi, lo) := by
  rw [wordToBytes_eq_fields, bytesToWord_eq_append]
  exact Prod.ext (extract_append_left hi lo) (extract_append_right hi lo)

/-- Settles O8: joining the two fields of a word gives the word, and the fields of a join are its parts. -/
theorem conversionsAreInverse : Obligations.ConversionsAreInverse :=
  ⟨bytesToWord_wordToBytes, wordToBytes_bytesToWord⟩

/-! ### KEYSEL (R84) -/

/-- The operand pattern `sssss ii` as a number (spec/30_encoding.md R66). -/
theorem stepStage_toNat (step : Step) (i : Stage) : (step ++ i : BitVec 7).toNat = 4 * step.toNat + i.toNat := by
  calc (step ++ i : BitVec 7).toNat
      = step.toNat <<< 2 ||| i.toNat := BitVec.toNat_append step i
    _ = step.toNat <<< 2 + i.toNat := (Nat.shiftLeft_add_eq_or_of_lt i.isLt _).symm
    _ = 4 * step.toNat + i.toNat := by rw [Nat.shiftLeft_eq, Nat.mul_comm]

theorem keySel_val (step : Step) (i : Stage) : (keySel step i).val = (4 * step.toNat + i.toNat) % 10 := rfl

/-- The indices of a step start at an even one: `4*step` and the modulus are even. -/
theorem keySel_zero_even (step : Step) : (keySel step 0).val % 2 = 0 := by
  have hval : (keySel step 0).val = (4 * step.toNat + 0) % 10 := keySel_val step 0
  omega

/-- The index repeats every five steps: `4*5` is a multiple of the modulus. -/
theorem keySel_add_five {step : Step} (h : step.toNat + 5 < 32) (i : Stage) : keySel (step + 5) i = keySel step i := by
  have hstep : (step + 5).toNat = step.toNat + 5 := Nat.mod_eq_of_lt h
  apply Fin.ext
  rw [keySel_val, keySel_val, hstep]
  omega

/-- Settles O10. -/
theorem keyIndexPattern : Obligations.KeyIndexPattern := fun step i =>
  ⟨keySel_val step i, stepStage_toNat step i, keySel_zero_even step, fun h => keySel_add_five h i⟩

/-! ### The table (R80) -/

/-- The address of each entry of `F`, by the high hex digit of the entry. -/
def fAddressTable : Vector (Vector Byte 16) 16 :=
  #v[#v[0x69, 0xfb, 0x22, 0xae, 0xc1, 0xfc, 0x65, 0x8a, 0xe0, 0x02, 0x20, 0x5d, 0xd0, 0xa5, 0xce, 0x43],
     #v[0xde, 0xe2, 0x28, 0xf3, 0xc4, 0x0a, 0x3d, 0x24, 0x8f, 0x37, 0x4a, 0x47, 0xb2, 0x7f, 0x1b, 0x93],
     #v[0x77, 0x09, 0xc6, 0xc2, 0xe6, 0xf5, 0xac, 0x88, 0x1f, 0xc8, 0xfe, 0xa6, 0xa3, 0x11, 0x17, 0x4e],
     #v[0x92, 0x9e, 0xe8, 0x64, 0xb0, 0x60, 0xe9, 0xd6, 0x1d, 0x40, 0xfa, 0xb7, 0x85, 0x2e, 0xbd, 0x54],
     #v[0xaf, 0x55, 0x80, 0x87, 0x1e, 0x68, 0xff, 0x7d, 0x05, 0x84, 0x7e, 0xb1, 0x15, 0x12, 0x1c, 0xe5],
     #v[0xa8, 0xc5, 0x18, 0x2f, 0xaa, 0x50, 0x6b, 0xf4, 0x59, 0xfd, 0x58, 0xbe, 0x9d, 0x9c, 0xf0, 0x5b],
     #v[0x26, 0xa2, 0xdb, 0x35, 0xab, 0x66, 0x5c, 0x8e, 0x27, 0x67, 0x3e, 0x32, 0xf1, 0x6c, 0x83, 0xd5],
     #v[0xa0, 0xca, 0xd3, 0xb3, 0x99, 0xd4, 0x6f, 0xe1, 0x0b, 0xc9, 0x2a, 0x42, 0x38, 0xad, 0xcb, 0xba],
     #v[0x5a, 0x46, 0xa9, 0x03, 0x31, 0x53, 0xdd, 0xa7, 0xa1, 0x90, 0x13, 0xdc, 0xcd, 0x94, 0xda, 0x96],
     #v[0x5f, 0x4d, 0xe4, 0x45, 0x6a, 0x19, 0x30, 0x70, 0x6d, 0x0c, 0x36, 0x6e, 0xc3, 0xea, 0x82, 0xa4],
     #v[0x23, 0xd7, 0x3f, 0x00, 0x9f, 0xbf, 0xed, 0x63, 0xf9, 0xf2, 0x97, 0xbb, 0xef, 0xc0, 0x39, 0x0e],
     #v[0x74, 0x0d, 0x72, 0x08, 0x49, 0xf6, 0x41, 0x29, 0x4f, 0x51, 0x33, 0xee, 0xd2, 0xf8, 0xe3, 0x56],
     #v[0x62, 0x44, 0x73, 0x2b, 0xb5, 0xe7, 0x95, 0x8d, 0x98, 0x9b, 0x16, 0x91, 0xb8, 0x86, 0x14, 0xeb],
     #v[0x4c, 0xb4, 0x89, 0xd9, 0x8b, 0x61, 0x7a, 0x01, 0x5e, 0x1a, 0x52, 0x76, 0x9a, 0x7c, 0x8c, 0x21],
     #v[0x57, 0x78, 0xcf, 0xf7, 0x7b, 0x3a, 0xbc, 0x10, 0xdf, 0x2c, 0x4b, 0x79, 0xd8, 0x81, 0x48, 0xd1],
     #v[0xc7, 0x25, 0x34, 0xec, 0x07, 0x3b, 0x06, 0x3c, 0x04, 0x0f, 0x2d, 0xb9, 0x71, 0xb6, 0x75, 0xcc]]

/-- The address of the entry `b`. -/
def fAddress (b : Byte) : Byte := (fAddressTable.get (b.extractLsb' 4 4).toFin).get (b.extractLsb' 0 4).toFin

/-- Every address is found again from its entry: one look-up in each table for each of the 256 addresses. -/
theorem fAddress_fRom : Function.LeftInverse fAddress fRom := by
  unfold Function.LeftInverse
  decide +kernel

/-- The table has no entry twice. -/
theorem fRom_injective : Function.Injective fRom := fAddress_fRom.injective

theorem fRom_eq_zero_iff (a : Byte) : fRom a = 0 ↔ a = 0x69 := by
  have hzero : fRom 0x69 = 0 := by decide +kernel
  rw [← hzero]
  exact fRom_injective.eq_iff

theorem fRom_ne_self : ∀ a : Byte, fRom a ≠ a := by decide +kernel

/-- Settles O9: the only zero entry is at `0x69`, because the table has no entry twice. -/
theorem tableCornerCases : Obligations.TableCornerCases :=
  ⟨rfl, fRom_eq_zero_iff, fRom_ne_self, fun _ _ h => fRom_injective h⟩

/-! ### The operations that need no selector (R80 to R82, R84) -/

theorem exec_w2b (w : Word) (s : State) :
    exec (.w2b w) s = .next (s.record (.bytes (w.extractLsb' 8 8) (w.extractLsb' 0 8))) := by
  rw [exec, execW2b, wordToBytes_eq_fields]

theorem exec_b2w (hi lo : Byte) (s : State) : exec (.b2w hi lo) s = .next (s.record (.word (hi ++ lo))) := by
  rw [exec, execB2w, bytesToWord_eq_append]

theorem exec_flookup (a : Byte) (s : State) : exec (.flookup a) s = .next (s.record (.byte (fRom a))) := rfl

theorem exec_keysel (step : Step) (i : Stage) (s : State) :
    exec (.keysel step i) s = .next (s.record (.index (keySel step i))) := rfl

/-- Settles O33: each operation records the value its rule gives, with no guard, and recording writes `results` alone. -/
theorem selectorlessUnitsComplete : Obligations.SelectorlessUnitsComplete := fun s =>
  ⟨fun w => exec_w2b w s, fun hi lo => exec_b2w hi lo s, fun a => exec_flookup a s,
    fun step i => exec_keysel step i s⟩

end Sys2Proof.Machine
end

section
/-! PROOFS of the family 41_g_permutation: `G` and `GINV` as four stages on a pair of bytes, the inverse law and its
consequences, and the G unit in a round (spec/41_g_permutation.md). -/

namespace Sys2Proof.Machine

/-! ### The stages of G (R90, R91) -/

/-- One line of `G`: of the last two bytes the older leaves, and the new one is a look-up of the younger XORed with
it (R90). -/
def gStage (F : Byte → Byte) (k : Byte) (p : Byte × Byte) : Byte × Byte := (p.2, F (p.2 ^^^ k) ^^^ p.1)

/-- One line of `GINV`: the byte that left comes back (R91). -/
def gUnstage (F : Byte → Byte) (k : Byte) (p : Byte × Byte) : Byte × Byte := (F (p.1 ^^^ k) ^^^ p.2, p.1)

/-- `(F x XOR a) XOR F x = a`, whatever `F` is: the look-up need not be invertible. -/
@[simp] theorem gUnstage_gStage (F : Byte → Byte) (k : Byte) (p : Byte × Byte) :
    gUnstage F k (gStage F k p) = p := by
  simp [gUnstage, gStage]

@[simp] theorem gStage_gUnstage (F : Byte → Byte) (k : Byte) (p : Byte × Byte) :
    gStage F k (gUnstage F k p) = p := by
  simp [gUnstage, gStage]

section
variable (F : Byte → Byte) (K : Key)

/-- The bytes of `G` are those of the word after the stages 0 to 3. -/
theorem wordToBytes_gPerm (w : Word) (step : Step) :
    wordToBytes (gPerm F K w step) = gStage F (keyByte K step 3) (gStage F (keyByte K step 2)
      (gStage F (keyByte K step 1) (gStage F (keyByte K step 0) (wordToBytes w)))) :=
  wordToBytes_bytesToWord _ _

/-- The bytes of `GINV` are those of the word with the stages 3 to 0 taken back. -/
theorem wordToBytes_gInv (w : Word) (step : Step) :
    wordToBytes (gInv F K w step) = gUnstage F (keyByte K step 0) (gUnstage F (keyByte K step 1)
      (gUnstage F (keyByte K step 2) (gUnstage F (keyByte K step 3) (wordToBytes w)))) :=
  wordToBytes_bytesToWord _ _

/-- A word is determined by its bytes (R83). -/
theorem wordToBytes_injective : Function.Injective wordToBytes := fun w w' h => by
  rw [← bytesToWord_wordToBytes w, h, bytesToWord_wordToBytes]

/-! ### The inverse law and its consequences (R92, R93) -/

theorem gInv_gPerm (w : Word) (step : Step) : gInv F K (gPerm F K w step) step = w :=
  wordToBytes_injective (by simp only [wordToBytes_gInv, wordToBytes_gPerm, gUnstage_gStage])

theorem gPerm_gInv (w : Word) (step : Step) : gPerm F K (gInv F K w step) step = w :=
  wordToBytes_injective (by simp only [wordToBytes_gInv, wordToBytes_gPerm, gStage_gUnstage])

variable {K} {step step' : Step}

/-- `G` sees the step through its four key bytes alone. -/
theorem gPerm_congr_step (h : ∀ i, keyByte K step i = keyByte K step' i) (w : Word) :
    gPerm F K w step = gPerm F K w step' :=
  wordToBytes_injective (by simp only [wordToBytes_gPerm, h])

theorem gInv_congr_step (h : ∀ i, keyByte K step i = keyByte K step' i) (w : Word) :
    gInv F K w step = gInv F K w step' :=
  wordToBytes_injective (by simp only [wordToBytes_gInv, h])

theorem keyByte_congr (h : ∀ i, keySel step i = keySel step' i) (i : Stage) : keyByte K step i = keyByte K step' i :=
  congrArg K.get (h i)

end

theorem c16_injective : Function.Injective c16 := fun c d h =>
  Fin.ext (by rw [← c16_toNat, h, c16_toNat])

/-- Rounds that take the same key bytes differ by the counter: under each rule one word of the result is the same word
in both rounds XORed with the counter. -/
theorem rules_ne_of_keySel_eq (F : Byte → Byte) (K : Key) (b : Block) {c d : Counter} (hcd : c ≠ d)
    (hsel : ∀ i, keySel (stepOf c) i = keySel (stepOf d) i) :
    ruleA F K b c ≠ ruleA F K b d ∧ ruleB F K b c ≠ ruleB F K b d
    ∧ ruleAinv F K b c ≠ ruleAinv F K b d ∧ ruleBinv F K b c ≠ ruleBinv F K b d := by
  have hctr (x : Word) : x ^^^ c16 c ≠ x ^^^ c16 d := fun h => hcd (c16_injective (BitVec.xor_right_inj x |>.mp h))
  have hg := gPerm_congr_step F (keyByte_congr (K := K) hsel) b.w0
  have hginv := gInv_congr_step F (keyByte_congr (K := K) hsel) b.w1
  refine ⟨fun h => ?_, fun h => ?_, fun h => ?_, fun h => ?_⟩
  · have hw0 := congrArg Block.w0 h
    simp only [ruleA, hg] at hw0
    exact hctr _ hw0
  · exact hctr _ (congrArg Block.w2 h)
  · exact hctr _ (congrArg Block.w3 h)
  · have hw1 := congrArg Block.w1 h
    simp only [ruleBinv, hginv] at hw1
    exact hctr _ hw1

/-- Settles O12: each stage of one function takes back the same stage of the other. -/
theorem gAndGinvAreInverse : Obligations.GAndGinvAreInverse := fun F K w step =>
  ⟨gInv_gPerm F K w step, gPerm_gInv F K w step⟩

/-- Settles O13: the bijection from the inverse law, the period from that of the key index, the difference of rounds
from the counter. -/
theorem gIsAPeriodicBijection : Obligations.GIsAPeriodicBijection := by
  intro F K
  refine ⟨fun step => ?_, fun step step' w h => gPerm_congr_step F h w, fun step w h => ?_, fun w => ?_,
    fun b c d _ _ hcd hsel => rules_ne_of_keySel_eq F K b hcd hsel⟩
  · have hleft : Function.LeftInverse (fun w => gInv F K w step) (fun w => gPerm F K w step) :=
      fun w => gInv_gPerm F K w step
    have hright : Function.RightInverse (fun w => gInv F K w step) (fun w => gPerm F K w step) :=
      fun w => gPerm_gInv F K w step
    exact ⟨⟨hleft.injective, hright.surjective⟩, hleft, hright⟩
  · exact gPerm_congr_step F (keyByte_congr (keySel_add_five h)) w
  · have hsel : ∀ i, keySel 0 i = keySel 15 i := by decide
    exact gPerm_congr_step F (keyByte_congr hsel) w

/-! ### The G unit in a round (R95) -/

section
variable {s : State}

/-- In a round with a key the unit answers `G` of the word on its bundle. -/
theorem exec_g_of_round (hp : s.phase ≠ .idle) (hc : s.ctr ≠ 0) (hk : s.kv = true) (step : Step) (hi lo : Byte) :
    exec (.g step hi lo) s = .next (s.record (.word (gPerm fRom s.key (bytesToWord hi lo) step))) :=
  (State.whenRound_of_round hp hc _).trans (State.whenKey_of_loaded hk _)

theorem exec_ginv_of_round (hp : s.phase ≠ .idle) (hc : s.ctr ≠ 0) (hk : s.kv = true) (step : Step) (hi lo : Byte) :
    exec (.ginv step hi lo) s = .next (s.record (.word (gInv fRom s.key (bytesToWord hi lo) step))) :=
  (State.whenRound_of_round hp hc _).trans (State.whenKey_of_loaded hk _)

end

/-- The advance writes `CTR` and `PHASE` alone (R114). -/
@[simp] theorem State.advance_w (s : State) : s.advance.w = s.w := by
  unfold State.advance
  cases s.phase with
  | idle => rfl
  | enc => by_cases h : s.ctr = 32 <;> simp [h]
  | dec => by_cases h : s.ctr = 1 <;> simp [h]

/-- Either rule of `ENC` puts `G` of word 0 in word 1 (spec/42_stepping_rules.md R100, R102). -/
theorem encRule_w1 (F : Byte → Byte) (K : Key) (b : Block) (c : Counter) :
    (encRule F K b c).w1 = gPerm F K b.w0 (stepOf c) := by
  unfold encRule
  cases familyOf c <;> rfl

/-- Either rule of `DEC` puts `GINV` of word 1 in word 0 (R101, R103). -/
theorem decRule_w0 (F : Byte → Byte) (K : Key) (b : Block) (c : Counter) :
    (decRule F K b c).w0 = gInv F K b.w1 (stepOf c) := by
  unfold decRule
  cases familyOf c <;> rfl

/-- Settles O32: in a round the unit's guards pass, and the word it records is the join of the last two bytes. -/
theorem gUnitComputesItsFourStages : Obligations.GUnitComputesItsFourStages := by
  intro s step a b hp hc hk
  refine ⟨(exec_g_of_round hp hc hk step a b).trans ?_, (exec_ginv_of_round hp hc hk step a b).trans ?_⟩
  · rw [gPerm, wordToBytes_bytesToWord, bytesToWord_eq_append]
    rfl
  · rw [gInv, wordToBytes_bytesToWord, bytesToWord_eq_append]
    rfl

/-- Settles O51: the bundle carries the bytes of the word that the round's rule hands to `G` or `GINV`. -/
theorem roundFeedsTheGUnit : Obligations.RoundFeedsTheGUnit := by
  intro s hr hc hk hb
  have hstep : s.step = BitVec.ofNat 5 (s.ctr.val - 1) := stepOf_of_ne_zero hc
  refine ⟨fun hp => ?_, fun hp => ?_⟩
  · have hround : s.phase ≠ .idle := by simp [hp]
    have hexec := exec_g_of_round hround hc hk s.step (wordToBytes s.w.w0).1 (wordToBytes s.w.w0).2
    rw [bytesToWord_wordToBytes] at hexec
    refine ⟨_, _, _, _, State.gop_of_enc hp, congrArg Except.ok (decodeGBundle_gBundle 0 _ _ _), ?_, hexec,
      step_enc hr hp hc hk hb, ?_⟩
    · simp [hstep, wordToBytes_eq_fields]
    · rw [State.advance_w]
      exact encRule_w1 _ _ _ _
  · have hround : s.phase ≠ .idle := by simp [hp]
    have hexec := exec_ginv_of_round hround hc hk s.step (wordToBytes s.w.w1).1 (wordToBytes s.w.w1).2
    rw [bytesToWord_wordToBytes] at hexec
    refine ⟨_, _, _, _, State.gop_of_dec hp, congrArg Except.ok (decodeGBundle_gBundle 1 _ _ _), ?_, hexec,
      step_dec hr hp hc hk hb, ?_⟩
    · simp [hstep, wordToBytes_eq_fields]
    · rw [State.advance_w]
      exact decRule_w0 _ _ _ _

end Sys2Proof.Machine
end

section
/-! PROOFS of the family 42_stepping_rules: the inverse laws of the four rules as functions on blocks, and the rules as
micro-operations on `W` (spec/42_stepping_rules.md). -/

namespace Sys2Proof.Machine

/-! ### The inverse laws (R105) -/

/-- A word XORed with another and with the counter comes back when both are XORed in again. -/
theorem xor_counter_cancel (x y c : Word) : x ^^^ (x ^^^ y ^^^ c) ^^^ c = y := by
  rw [BitVec.xor_assoc x y c, xor_cancel_left, xor_cancel_right]

section
variable (F : Byte → Byte) (K : Key) (b : Block) (c : Counter)

/-- Word 1 gives `w0` back through `GINV`, and word 0 gives `w3` back. -/
theorem ruleAinv_ruleA : ruleAinv F K (ruleA F K b c) c = b := by
  have hw3 (g : Word) : g ^^^ b.w3 ^^^ c16 c ^^^ g ^^^ c16 c = b.w3 := by
    rw [BitVec.xor_comm _ g, xor_counter_cancel]
  simp only [ruleA, ruleAinv, gInv_gPerm, hw3]

/-- Word 0 gives `w1` back through `G`, and word 3 gives `w0` back. -/
theorem ruleA_ruleAinv : ruleA F K (ruleAinv F K b c) c = b := by
  have hw0 : b.w1 ^^^ (b.w0 ^^^ b.w1 ^^^ c16 c) ^^^ c16 c = b.w0 := by
    rw [BitVec.xor_comm b.w0, xor_counter_cancel]
  simp only [ruleA, ruleAinv, gPerm_gInv, hw0]

/-- Word 1 gives `w0` back through `GINV`, and with it word 2 gives `w1` back. -/
theorem ruleBinv_ruleB : ruleBinv F K (ruleB F K b c) c = b := by
  simp only [ruleB, ruleBinv, gInv_gPerm, xor_counter_cancel]

/-- Word 0 gives `w1` back through `G`, and with word 0 word 1 gives `w2` back. -/
theorem ruleB_ruleBinv : ruleB F K (ruleBinv F K b c) c = b := by
  simp only [ruleB, ruleBinv, gPerm_gInv, xor_counter_cancel]

end

/-- Settles O14: each rule is a two-sided inverse of the other of its family, so both are bijections. -/
theorem steppingRulesAreInverse : Obligations.SteppingRulesAreInverse := by
  intro F K c
  have hA : Function.LeftInverse (fun b => ruleAinv F K b c) (fun b => ruleA F K b c) :=
    fun b => ruleAinv_ruleA F K b c
  have hAinv : Function.LeftInverse (fun b => ruleA F K b c) (fun b => ruleAinv F K b c) :=
    fun b => ruleA_ruleAinv F K b c
  have hB : Function.LeftInverse (fun b => ruleBinv F K b c) (fun b => ruleB F K b c) :=
    fun b => ruleBinv_ruleB F K b c
  have hBinv : Function.LeftInverse (fun b => ruleB F K b c) (fun b => ruleBinv F K b c) :=
    fun b => ruleB_ruleBinv F K b c
  exact ⟨fun b => ⟨hA b, hB b, hAinv b, hBinv b⟩, ⟨hA.injective, hAinv.surjective⟩, ⟨hB.injective, hBinv.surjective⟩,
    ⟨hAinv.injective, hA.surjective⟩, ⟨hBinv.injective, hB.surjective⟩⟩

/-! ### The rules as micro-operations (R100 to R104)

In a round the guards pass and the rule is applied to the old registers; there its step is the counter less one. -/

/-- Settles O27. -/
theorem stepARewritesTheBlock : Obligations.StepARewritesTheBlock := by
  intro s hp hc hk hb
  rw [← stepOf_of_ne_zero hc]
  exact State.applyRule_of_round (ruleA fRom) hp hc hk hb

/-- Settles O28. -/
theorem stepBRewritesTheBlock : Obligations.StepBRewritesTheBlock := by
  intro s hp hc hk hb
  rw [← stepOf_of_ne_zero hc]
  exact State.applyRule_of_round (ruleB fRom) hp hc hk hb

/-- Settles O29. -/
theorem stepAinvRewritesTheBlock : Obligations.StepAinvRewritesTheBlock := by
  intro s hp hc hk hb
  rw [← stepOf_of_ne_zero hc]
  exact State.applyRule_of_round (ruleAinv fRom) hp hc hk hb

/-- Settles O30. -/
theorem stepBinvRewritesTheBlock : Obligations.StepBinvRewritesTheBlock := by
  intro s hp hc hk hb
  rw [← stepOf_of_ne_zero hc]
  exact State.applyRule_of_round (ruleBinv fRom) hp hc hk hb

end Sys2Proof.Machine
end


section
/-! PROOFS of the family 43_engine: the schedule and the two transforms as functions, a round as a step, and the
transforms as runs of the machine (spec/43_engine.md). -/

namespace Sys2Proof.Machine

/-! ### The schedule (R110, R111) -/

theorem scheduled_eq_familyOf : ∀ c : Counter, c ≠ 0 → scheduled c.val = some (familyOf c) := by decide

/-- In a round the table gives rule A, or its inverse, where bit 3 of the step is clear. -/
theorem scheduled_eq_a_iff {c : Counter} (hc : c ≠ 0) : scheduled c.val = some .a ↔ (stepOf c).getLsbD 3 = false := by
  rw [scheduled_eq_familyOf c hc, familyOf]
  cases (stepOf c).getLsbD 3 <;> simp

/-- Settles O15: the select carries bit 3 of the step, and that bit reproduces the table. -/
theorem roundSelectFollowsSchedule : Obligations.RoundSelectFollowsSchedule := by
  refine ⟨scheduled_eq_familyOf, fun s hc => ⟨fun hp => ?_, fun hp => ?_⟩⟩
  · rw [State.rsel_of_enc hp, Option.map_some, decodeRoundSelect_enc, State.step]
    simp only [scheduled_eq_a_iff hc]
    cases (stepOf s.ctr).getLsbD 3 <;> rfl
  · rw [State.rsel_of_dec hp, Option.map_some, decodeRoundSelect_dec, State.step]
    simp only [scheduled_eq_a_iff hc]
    cases (stepOf s.ctr).getLsbD 3 <;> rfl

/-- Settles O16: both sides are the 32 rules at the counters the bands give, by evaluation of the schedule. -/
theorem transformsRunTheBands : Obligations.TransformsRunTheBands := fun _ _ _ => ⟨rfl, rfl⟩

/-! ### The transforms are inverse (R117) -/

section
variable (F : Byte → Byte) (K : Key) (b : Block)

/-- A round of `DEC` takes back the round of `ENC` with the same counter: the two rules are of one family. -/
theorem decRule_encRule (c : Counter) : decRule F K (encRule F K b c) c = b := by
  unfold decRule encRule
  cases familyOf c with
  | a => exact ruleAinv_ruleA F K b c
  | b => exact ruleBinv_ruleB F K b c

theorem encRule_decRule (c : Counter) : encRule F K (decRule F K b c) c = b := by
  unfold decRule encRule
  cases familyOf c with
  | a => exact ruleA_ruleAinv F K b c
  | b => exact ruleB_ruleBinv F K b c

/-- `m` rounds of `DECRYPT` take back the last `m` rounds of `ENCRYPT`. -/
theorem decRounds_encrypt {n m : Nat} (h : n + m = 32) : decRounds F K (encrypt F K b) m = encRounds F K b n := by
  induction m generalizing n with
  | zero => subst h; rfl
  | succ m ih =>
    have hctr : Config.rounds - m = n + 1 := by rw [Config.rounds]; omega
    rw [decRounds, ih (n := n + 1) (by omega), hctr, encRounds, decRule_encRule]

/-- `n` rounds of `ENCRYPT` take back the last `n` rounds of `DECRYPT`. -/
theorem encRounds_decrypt {n m : Nat} (h : n + m = 32) : encRounds F K (decrypt F K b) n = decRounds F K b m := by
  induction n generalizing m with
  | zero =>
    obtain rfl : m = 32 := by omega
    rfl
  | succ n ih =>
    have hctr : Config.rounds - m = n + 1 := by rw [Config.rounds]; omega
    rw [encRounds, ih (m := m + 1) (by omega), decRounds, hctr, encRule_decRule]

theorem decrypt_encrypt : decrypt F K (encrypt F K b) = b := decRounds_encrypt F K b (Nat.zero_add 32)

theorem encrypt_decrypt : encrypt F K (decrypt F K b) = b := encRounds_decrypt F K b (Nat.add_zero 32)

end

/-- Settles O17: each transform is a two-sided inverse of the other. -/
theorem encryptDecryptRoundTrip : Obligations.EncryptDecryptRoundTrip := by
  intro F K
  have hdec : Function.LeftInverse (decrypt F K) (encrypt F K) := decrypt_encrypt F K
  have henc : Function.LeftInverse (encrypt F K) (decrypt F K) := encrypt_decrypt F K
  exact ⟨fun b => ⟨hdec b, henc b⟩, ⟨hdec.injective, henc.surjective⟩, ⟨henc.injective, hdec.surjective⟩⟩

/-! ### A round as a step (R114) -/

/-- The advance of a round of `ENC`, field by field. -/
theorem State.advance_of_enc {s : State} (hp : s.phase = .enc) :
    s.advance = { s with
      ctr := if s.ctr = 32 then 0 else s.ctr + 1
      phase := if s.ctr = 32 then .idle else .enc } := by
  by_cases hc : s.ctr = 32
  · simp [State.advance, State.start, hp, hc]
  · simp [State.advance, State.start, hp, hc]

/-- The advance of a round of `DEC`, field by field. -/
theorem State.advance_of_dec {s : State} (hp : s.phase = .dec) :
    s.advance = { s with
      ctr := if s.ctr = 1 then 0 else s.ctr - 1
      phase := if s.ctr = 1 then .idle else .dec } := by
  by_cases hc : s.ctr = 1
  · simp [State.advance, State.start, hp, hc]
  · simp [State.advance, State.start, hp, hc]

/-- The state after a round of `ENC`. -/
def State.nextEncRound (s : State) : State :=
  { s with
    rstLine := s.rstLine.tail
    w := encRule fRom s.key s.w s.ctr
    ctr := if s.ctr = 32 then 0 else s.ctr + 1
    phase := if s.ctr = 32 then .idle else .enc }

/-- The state after a round of `DEC`. -/
def State.nextDecRound (s : State) : State :=
  { s with
    rstLine := s.rstLine.tail
    w := decRule fRom s.key s.w s.ctr
    ctr := if s.ctr = 1 then 0 else s.ctr - 1
    phase := if s.ctr = 1 then .idle else .dec }

section
variable {s : State}

theorem step_encRound (hr : s.released 1) (hp : s.phase = .enc) (hc : s.ctr ≠ 0) (hk : s.kv = true)
    (hb : s.bv = true) : step s = .next s.nextEncRound :=
  (step_enc hr hp hc hk hb).trans (congrArg _ (State.advance_of_enc hp))

theorem step_decRound (hr : s.released 1) (hp : s.phase = .dec) (hc : s.ctr ≠ 0) (hk : s.kv = true)
    (hb : s.bv = true) : step s = .next s.nextDecRound :=
  (step_dec hr hp hc hk hb).trans (congrArg _ (State.advance_of_dec hp))

/-- Of the released actions only a `ROUND` is a round, and there is one exactly while there is a select. -/
theorem State.fetchReleased_eq_round_iff {i : Instr} {t : State} :
    s.fetchReleased = .round i t ↔ ∃ r, s.rsel = some r ∧ i = decodeRoundSelect r ∧ t = s := by
  cases hr : s.rsel with
  | some r => simp [State.fetchReleased_busy hr, eq_comm]
  | none =>
    have hp : s.phase = .idle := not_not.mp fun hp => by simpa [hr] using s.exists_rsel_iff.mpr hp
    cases hc : s.call with
    | some u => simp [State.fetchReleased_call hp hc]
    | none =>
      cases hh : s.host with
      | nil => simp [State.fetchReleased_nothing hp hc hh]
      | cons c rest =>
        rw [State.fetchReleased_command hp hc hh, fetchCommand]
        cases decodeCommand c <;> simp

theorem State.fetch_eq_round_iff (hr : s.released 1) {i : Instr} {t : State} :
    s.fetch = .round i t
      ↔ ∃ r, s.rsel = some r ∧ i = decodeRoundSelect r ∧ t = { s with rstLine := s.rstLine.tail } := by
  rw [State.fetch_released hr]
  exact State.fetchReleased_eq_round_iff

/-- The select of a round, bit by bit (spec/30_encoding.md R64). -/
theorem State.rsel_of_round (hp : s.phase ≠ .idle) :
    s.rsel = some (BitVec.ofBool (decide (s.phase = .dec)) ++ BitVec.ofBool (s.step.getLsbD 3)) := by
  have hbit : ∀ n : Step, n.extractLsb' 3 1 = BitVec.ofBool (n.getLsbD 3) := by decide
  cases h : s.phase with
  | idle => exact absurd h hp
  | enc => rw [State.rsel_of_enc h, hbit]; rfl
  | dec => rw [State.rsel_of_dec h, hbit]; rfl

end

/-- The rule's example of a round (R114). -/
theorem encRule_example :
    encRule fRom #v[0x00, 0x99, 0x88, 0x77, 0x66, 0x55, 0x44, 0x33, 0x22, 0x11] ⟨0x3322, 0x1100, 0xddcc, 0xbbaa⟩ 1
      = ⟨0xb004, 0x0baf, 0x1100, 0xddcc⟩ := by decide

/-- Settles O34: the state after a round is known field by field, and a round is fetched exactly with a select. -/
theorem roundStepOfTheEngine : Obligations.RoundStepOfTheEngine := by
  refine ⟨fun s hr hc hk hb => ⟨fun hp => step_encRound hr hp hc hk hb, fun hp => step_decRound hr hp hc hk hb,
    fun t hround ht => ?_⟩, fun s hr => ⟨?_, fun i t hc h => ?_⟩, fun s hr hp hc hk hb hkey hw => ?_⟩
  · cases hp : s.phase with
    | idle => exact absurd hp hround
    | enc =>
      rw [step_encRound hr hp hc hk hb] at ht
      injection ht with ht
      by_cases hlast : s.ctr = 32 <;> simp [← ht, State.nextEncRound, hlast]
    | dec =>
      rw [step_decRound hr hp hc hk hb] at ht
      injection ht with ht
      by_cases hlast : s.ctr = 1 <;> simp [← ht, State.nextDecRound, hlast]
  · rw [← s.exists_rsel_iff]
    simp [State.fetch_eq_round_iff hr]
  · obtain ⟨r, hsel, rfl, -⟩ := (State.fetch_eq_round_iff hr).mp h
    have hround := s.exists_rsel_iff.mp ⟨r, hsel⟩
    rw [State.rsel_of_round hround, State.step, stepOf_of_ne_zero hc] at hsel
    exact congrArg decodeRoundSelect (Option.some.inj hsel).symm
  · refine ⟨s.nextEncRound, step_encRound hr hp (by simp [hc]) hk hb, ?_⟩
    simp only [State.nextEncRound, hkey, hw, hc, encRule_example]
    decide

/-! ### The end of a transform (R115) -/

/-- The rounds a transform still has before it (R115): none in `IDLE`, and in a round those its counter leaves. -/
def State.roundsLeft (s : State) : Nat :=
  match s.phase with
  | .idle => 0
  | .enc => 33 - s.ctr.val
  | .dec => s.ctr.val

/-- What a transform does not touch: the key, the marks, the output and the host's words. -/
structure State.AgreesOutside (s t : State) : Prop where
  key : t.key = s.key
  kv : t.kv = s.kv
  bv : t.bv = s.bv
  out : t.out = s.out
  host : t.host = s.host

theorem State.AgreesOutside.trans {s t u : State} (h : s.AgreesOutside t) (h' : t.AgreesOutside u) :
    s.AgreesOutside u :=
  ⟨h'.key.trans h.key, h'.kv.trans h.kv, h'.bv.trans h.bv, h'.out.trans h.out, h'.host.trans h.host⟩

section
variable {s : State}

theorem State.roundsLeft_of_idle (hp : s.phase = .idle) : s.roundsLeft = 0 := by rw [State.roundsLeft, hp]

theorem State.roundsLeft_of_enc (hp : s.phase = .enc) : s.roundsLeft = 33 - s.ctr.val := by rw [State.roundsLeft, hp]

theorem State.roundsLeft_of_dec (hp : s.phase = .dec) : s.roundsLeft = s.ctr.val := by rw [State.roundsLeft, hp]

/-- A legal state is `IDLE` exactly when no round is left. -/
theorem State.roundsLeft_eq_zero_iff (hs : s.Inv) : s.roundsLeft = 0 ↔ s.phase = .idle := by
  obtain ⟨hctr, -⟩ := hs
  cases hp : s.phase with
  | idle => simp [State.roundsLeft_of_idle hp]
  | enc =>
    have hleft : 33 - s.ctr.val ≠ 0 := by omega
    simp [State.roundsLeft_of_enc hp, hleft]
  | dec => rw [State.roundsLeft_of_dec hp, Fin.val_eq_zero_iff, hctr, hp]

theorem State.nextEncRound_roundsLeft (hp : s.phase = .enc) : s.nextEncRound.roundsLeft + 1 = s.roundsLeft := by
  rw [State.roundsLeft_of_enc hp]
  by_cases hlast : s.ctr = 32
  · simp [State.nextEncRound, State.roundsLeft, hlast]
  · have hctr : (s.ctr + 1).val = s.ctr.val + 1 := Fin.val_add_one_of_lt (Fin.lt_last_iff_ne_last.mpr hlast)
    have hbound : (s.ctr + 1).val < 33 := (s.ctr + 1).isLt
    simp only [State.nextEncRound, State.roundsLeft, hlast, if_false, hctr]
    omega

theorem State.nextDecRound_roundsLeft (hp : s.phase = .dec) (hc : s.ctr ≠ 0) :
    s.nextDecRound.roundsLeft + 1 = s.roundsLeft := by
  rw [State.roundsLeft_of_dec hp]
  by_cases hlast : s.ctr = 1
  · simp [State.nextDecRound, State.roundsLeft, hlast]
  · have hpos : 1 ≤ s.ctr.val := Nat.one_le_iff_ne_zero.mpr (Fin.val_ne_zero_iff.mpr hc)
    have hctr : (s.ctr - 1).val = s.ctr.val - 1 := Fin.val_sub_one_of_ne_zero hc
    simp only [State.nextDecRound, State.roundsLeft, hlast, if_false, hctr]
    omega

/-- A round of a legal state: one round fewer is left, the direction stays until the last, and the reset line moves. -/
theorem step_round (hs : s.Inv) (hr : s.released 1) (hp : s.phase ≠ .idle) :
    ∃ t, step s = .next t ∧ s.AgreesOutside t ∧ t.rstLine = s.rstLine.tail ∧ t.roundsLeft + 1 = s.roundsLeft
      ∧ (t.phase = .idle ∨ t.phase = s.phase) := by
  obtain ⟨hk, hb⟩ := hs.2 hp
  have hc : s.ctr ≠ 0 := mt hs.1.mp hp
  cases h : s.phase with
  | idle => exact absurd h hp
  | enc =>
    exact ⟨_, step_encRound hr h hc hk hb, ⟨rfl, rfl, rfl, rfl, rfl⟩, rfl, State.nextEncRound_roundsLeft h,
      ite_eq_or_eq _ _ _⟩
  | dec =>
    exact ⟨_, step_decRound hr h hc hk hb, ⟨rfl, rfl, rfl, rfl, rfl⟩, rfl, State.nextDecRound_roundsLeft h hc,
      ite_eq_or_eq _ _ _⟩

/-- As many steps as rounds are left, or fewer, are that many rounds. -/
theorem runSteps_rounds {n : Nat} (hs : s.Inv) (hr : s.released n) (hn : n ≤ s.roundsLeft) :
    ∃ t, runSteps n s = .next t ∧ s.AgreesOutside t ∧ t.Inv ∧ t.roundsLeft + n = s.roundsLeft
      ∧ (t.phase = .idle ∨ t.phase = s.phase) := by
  induction n generalizing s with
  | zero => exact ⟨s, rfl, ⟨rfl, rfl, rfl, rfl, rfl⟩, hs, rfl, .inr rfl⟩
  | succ n ih =>
    have hp : s.phase ≠ .idle := fun hp => by simp [State.roundsLeft_of_idle hp] at hn
    have hr1 : s.released 1 := State.released_of_add (n := n) (Nat.add_comm n 1 ▸ hr)
    obtain ⟨u, hu, hsu, hline, hleft, hphase⟩ := step_round hs hr1 hp
    have hru : u.released n := by
      rw [State.released, hline]
      exact State.released_tail hr
    obtain ⟨t, ht, hut, hinv, hleft', hphase'⟩ := ih (invariantKeptByEveryStep s u hs hu) hru (by omega)
    refine ⟨t, ?_, hsu.trans hut, hinv, by omega, hphase'.elim .inl fun h => h ▸ hphase⟩
    simp only [runSteps, hu, ht]

/-- The run ends in `IDLE` with the last round left, and not before. -/
theorem runSteps_rounds_phase {n : Nat} (hs : s.Inv) (hr : s.released n) (hn : n ≤ s.roundsLeft) :
    ∃ t, runSteps n s = .next t ∧ s.AgreesOutside t ∧ t.roundsLeft + n = s.roundsLeft
      ∧ (n = s.roundsLeft → t.phase = .idle ∧ t.ctr = 0 ∧ t.ready = true) ∧ (n ≠ s.roundsLeft → t.phase = s.phase) := by
  obtain ⟨t, ht, hagree, hinv, hleft, hphase⟩ := runSteps_rounds hs hr hn
  have hidle := State.roundsLeft_eq_zero_iff hinv
  refine ⟨t, ht, hagree, hleft, fun hlast => ?_, fun hmore => hphase.resolve_left (mt hidle.mpr (by omega))⟩
  have hp : t.phase = .idle := hidle.mp (by omega)
  exact ⟨hp, hinv.1.mpr hp, t.ready_iff.mpr hp⟩

end

/-- Settles O41: the rounds left are those of the counter, and a run of `n` rounds leaves `n` fewer. -/
theorem transformEndsOnTime : Obligations.TransformEndsOnTime := by
  intro s n hs hr
  refine ⟨fun hp hn => ?_, fun hp hn => ?_⟩
  · have hleft := State.roundsLeft_of_enc hp
    obtain ⟨t, ht, ⟨hkey, hkv, hbv, hout, hhost⟩, hrun, hlast, hmore⟩ := runSteps_rounds_phase hs hr (hleft ▸ hn)
    rw [← hleft]
    refine ⟨t, ht, hkey, hkv, hbv, hout, hhost, ?_⟩
    split
    case isTrue h => exact hlast h
    case isFalse h =>
      have henc : t.phase = .enc := (hmore h).trans hp
      rw [State.roundsLeft_of_enc henc] at hrun
      exact ⟨henc, by omega⟩
  · have hleft := State.roundsLeft_of_dec hp
    obtain ⟨t, ht, ⟨hkey, hkv, hbv, hout, hhost⟩, hrun, hlast, hmore⟩ := runSteps_rounds_phase hs hr (hleft ▸ hn)
    rw [← hleft]
    refine ⟨t, ht, hkey, hkv, hbv, hout, hhost, ?_⟩
    split
    case isTrue h => exact hlast h
    case isFalse h =>
      have hdec : t.phase = .dec := (hmore h).trans hp
      rw [State.roundsLeft_of_dec hdec] at hrun
      exact ⟨hdec, by omega⟩

/-! ### A whole transform (R116) -/

/-- The state 33 steps after a transform was accepted in `s` that left the words `rest` at the port and `b` in `W`. -/
def State.afterTransform (s : State) (rest : List CmdWord) (b : Block) : State :=
  { s with
    host := rest
    rstLine := s.rstLine.drop 33
    phase := .idle
    ctr := 0
    w := b }

/-- The command word `c` at the port makes the block in `W`, in 33 steps, into what `f` makes of it under `KEY`. -/
def CommandRuns (c : CmdWord) (f : Key → Block → Block) : Prop :=
  ∀ (s : State) (rest : List CmdWord), s.released 33 → s.phase = .idle → s.call = none → s.kv = true → s.bv = true →
    s.host = c :: rest → runSteps 33 s = .next (s.afterTransform rest (f s.key s.w))

section
variable {s : State} {rest : List CmdWord}

/-- The last round of `ENC`, at counter 32. -/
theorem step_afterEncRounds_last (hr : s.released 33) (hk : s.kv = true) (hb : s.bv = true) :
    step (s.afterEncRounds rest 31) = .next (s.afterTransform rest (encrypt fRom s.key s.w)) := by
  have hctr : (Fin.ofNat 33 32 : Counter) ≠ 0 := by decide
  rw [step_encRound (s := s.afterEncRounds rest 31) (State.released_drop (m := 32) (n := 1) hr) rfl hctr hk hb]
  simp only [State.nextEncRound, State.afterEncRounds, State.afterTransform, List.tail_drop]
  rfl

/-- The last round of `DEC`, at counter 1. -/
theorem step_afterDecRounds_last (hr : s.released 33) (hk : s.kv = true) (hb : s.bv = true) :
    step (s.afterDecRounds rest 31) = .next (s.afterTransform rest (decrypt fRom s.key s.w)) := by
  have hctr : (Fin.ofNat 33 1 : Counter) ≠ 0 := by decide
  rw [step_decRound (s := s.afterDecRounds rest 31) (State.released_drop (m := 32) (n := 1) hr) rfl hctr hk hb]
  simp only [State.nextDecRound, State.afterDecRounds, State.afterTransform, List.tail_drop]
  rfl

end

theorem commandRuns_enc : CommandRuns 0x0400000000000000000000 (encrypt fRom) := by
  intro s rest hr hp hc hk hb hh
  have hstart := step_encCommand (State.released_of_add (n := 32) hr) hp hc hk hb hh
  have hrounds := runSteps_afterEncRounds (n := 31) (by decide) (State.released_of_add (n := 1) hr) hk hb hstart
  exact (runSteps_succ hrounds).trans (step_afterEncRounds_last hr hk hb)

theorem commandRuns_dec : CommandRuns 0x0500000000000000000000 (decrypt fRom) := by
  intro s rest hr hp hc hk hb hh
  have hstart := step_decCommand (State.released_of_add (n := 32) hr) hp hc hk hb hh
  have hrounds := runSteps_afterDecRounds (n := 31) (by decide) (State.released_of_add (n := 1) hr) hk hb hstart
  exact (runSteps_succ hrounds).trans (step_afterDecRounds_last hr hk hb)

/-- Settles O40: the accepted command, the rounds before the last, and the last, which returns to `IDLE`. -/
theorem transformRefinesTheFunction : Obligations.TransformRefinesTheFunction := by
  intro s c rest hr hp hc hk hb hh
  refine ⟨?_, ?_⟩
  · rintro rfl
    exact commandRuns_enc s rest hr hp hc hk hb hh
  · rintro rfl
    exact commandRuns_dec s rest hr hp hc hk hb hh

/-! ### Transforms in a row (R117) -/

/-- Only its own word decodes to `ENC`. -/
theorem commandRuns_of_decode_enc {c : CmdWord} (h : decodeCommand c = .ok .enc) : CommandRuns c (encrypt fRom) := by
  obtain rfl : _ = c := RawWord.command.inj (encodeDecodeEveryWord (.command c) .enc h)
  exact commandRuns_enc

/-- Only its own word decodes to `DEC`. -/
theorem commandRuns_of_decode_dec {c : CmdWord} (h : decodeCommand c = .ok .dec) : CommandRuns c (decrypt fRom) := by
  obtain rfl : _ = c := RawWord.command.inj (encodeDecodeEveryWord (.command c) .dec h)
  exact commandRuns_dec

theorem runSteps_one (s : State) : runSteps 1 s = step s := runSteps_succ (n := 0) rfl

theorem runSteps_trans {m n : Nat} {s t : State} {o : Result} (h : runSteps m s = .next t) (h' : runSteps n t = o) :
    runSteps (m + n) s = o := by
  rw [runSteps_add, h]
  exact h'

section
variable {s : State} {c : CmdWord} {rest : List CmdWord}

theorem step_ldblkCommand {b : Block} (hr : s.released 1) (hp : s.phase = .idle) (hc : s.call = none)
    (hh : s.host = c :: rest) (hd : decodeCommand c = .ok (.ldblk b)) :
    step s = .next (({ s with rstLine := s.rstLine.tail, host := rest } : State).loadBlock b) := by
  rw [step_command hr hp hc hh, hd]
  exact State.whenReady_of_idle (s := { s with rstLine := s.rstLine.tail, host := rest }) hp _

theorem step_rdblkCommand (hr : s.released 1) (hp : s.phase = .idle) (hc : s.call = none) (hb : s.bv = true)
    (hh : s.host = c :: rest) (hd : decodeCommand c = .ok .rdblk) :
    step s = .next (({ s with rstLine := s.rstLine.tail, host := rest } : State).emit s.w.toDout) := by
  rw [step_command hr hp hc hh, hd]
  exact (State.whenReady_of_idle (s := { s with rstLine := s.rstLine.tail, host := rest }) hp _).trans
    (State.whenBlock_of_loaded hb _)

/-- `LDBLK b`, two transforms that undo each other, `RDBLK`. -/
theorem runSteps_chained {b : Block} {c1 c2 c3 c4 : CmdWord} {f g : Key → Block → Block} (hr : s.released 68)
    (hp : s.phase = .idle) (hc : s.call = none) (hk : s.kv = true) (hh : s.host = c1 :: c2 :: c3 :: c4 :: rest)
    (h1 : decodeCommand c1 = .ok (.ldblk b)) (h2 : CommandRuns c2 f) (h3 : CommandRuns c3 g)
    (h4 : decodeCommand c4 = .ok .rdblk) (hgf : g s.key (f s.key b) = b) :
    ∃ t, runSteps 68 s = .next t ∧ t.w = b ∧ t.key = s.key ∧ t.out = s.out ++ [b.toDout] := by
  let s1 : State := ({ s with rstLine := s.rstLine.tail, host := c2 :: c3 :: c4 :: rest } : State).loadBlock b
  let s2 : State := s1.afterTransform (c3 :: c4 :: rest) (f s.key b)
  let s3 : State := s2.afterTransform (c4 :: rest) (g s.key (f s.key b))
  have hr1 : s1.released (33 + 34) := State.released_tail hr
  have hr2 : s2.released (33 + 1) := State.released_drop hr1
  have hr3 : s3.released 1 := State.released_drop hr2
  have hload : runSteps 1 s = .next s1 :=
    (runSteps_one s).trans (step_ldblkCommand (State.released_of_add (n := 67) hr) hp hc hh h1)
  have hfirst : runSteps 33 s1 = .next s2 := h2 s1 _ (State.released_of_add hr1) hp hc hk rfl rfl
  have hsecond : runSteps 33 s2 = .next s3 := h3 s2 _ (State.released_of_add hr2) rfl hc hk rfl rfl
  have hread := (runSteps_one s3).trans (step_rdblkCommand hr3 rfl hc rfl rfl h4)
  refine ⟨_, runSteps_trans hload (runSteps_trans hfirst (runSteps_trans hsecond hread)), hgf, rfl, ?_⟩
  exact congrArg (fun x : Block => s.out ++ [x.toDout]) hgf

end

/-- Settles O43: each transform undoes the other under the key that stays loaded. -/
theorem chainedTransformsRestoreTheBlock : Obligations.ChainedTransformsRestoreTheBlock := by
  rintro s b c1 c2 c3 c4 rest hr hp hc hk hh h1 h4 (⟨h2, h3⟩ | ⟨h2, h3⟩)
  · exact runSteps_chained hr hp hc hk hh h1 (commandRuns_of_decode_enc h2) (commandRuns_of_decode_dec h3) h4
      (decrypt_encrypt fRom s.key b)
  · exact runSteps_chained hr hp hc hk hh h1 (commandRuns_of_decode_dec h2) (commandRuns_of_decode_enc h3) h4
      (encrypt_decrypt fRom s.key b)

end Sys2Proof.Machine
end

section
/-! PROOFS of the family 44_host_commands: what each command answers in `IDLE`, that a word waits while a transform
runs, the software call as a run of four commands, and what a step does with its inputs (spec/44_host_commands.md). -/

namespace Sys2Proof.Machine

/-! ### The port is not read while a transform runs (R125) -/

/-- The state with another list of words at the port. -/
def State.withHost (h : List CmdWord) (s : State) : State := { s with host := h }

theorem mapNext_comm {f g : State → State} (h : ∀ t, f (g t) = g (f t)) (o : Result) :
    mapNext f (mapNext g o) = mapNext g (mapNext f o) := by
  cases o with
  | next t => exact congrArg Host.Outcome.next (h t)
  | fault x => rfl
  | refused r => rfl

section
variable (h : List CmdWord)

/-- A stepping rule neither reads nor writes the port: its guards and its operands are registers. -/
theorem State.applyRule_withHost (rule : Key → Block → Counter → Block) (s : State) :
    (s.withHost h).applyRule rule = mapNext (State.withHost h) (s.applyRule rule) := by
  unfold State.applyRule State.whenRound State.whenKey State.whenBlock
  rw [apply_ite (mapNext _), apply_ite (mapNext _), apply_ite (mapNext _)]
  rfl

theorem State.advance_withHost (s : State) : (s.withHost h).advance = s.advance.withHost h := by
  cases hp : s.phase with
  | idle => simp only [State.advance, State.withHost, hp]
  | enc => rw [State.advance_of_enc hp]; exact State.advance_of_enc (s := s.withHost h) hp
  | dec => rw [State.advance_of_dec hp]; exact State.advance_of_dec (s := s.withHost h) hp

/-- Every select is the select of a stepping rule (spec/30_encoding.md R64). -/
theorem exists_rule_of_roundSelect (r : BitVec 2) :
    ∃ rule, ∀ s : State, exec (decodeRoundSelect r) s = s.applyRule rule := by
  unfold decodeRoundSelect
  split_ifs
  · exact ⟨ruleA fRom, fun _ => rfl⟩
  · exact ⟨ruleB fRom, fun _ => rfl⟩
  · exact ⟨ruleAinv fRom, fun _ => rfl⟩
  · exact ⟨ruleBinv fRom, fun _ => rfl⟩

/-- While a transform runs, a step is a reset or a round, and neither looks at the port. -/
theorem step_withHost_of_busy {s : State} (hp : s.phase ≠ .idle) :
    step (s.withHost h) = mapNext (State.withHost h) (step s) := by
  obtain ⟨rest, hl⟩ | ⟨hr, ⟨r, hsel⟩ | ⟨hidle, -⟩⟩ := s.situations
  · rw [step_reset hl, step_reset (s := s.withHost h) hl]
    rfl
  · obtain ⟨rule, hrule⟩ := exists_rule_of_roundSelect r
    rw [step_busy hr hsel, step_busy (s := s.withHost h) hr hsel, hrule, hrule,
      mapNext_comm fun t => (t.advance_withHost h).symm]
    exact congrArg (mapNext State.advance) (State.applyRule_withHost h rule { s with rstLine := s.rstLine.tail })
  · exact absurd hidle hp

end

theorem State.whenReady_of_busy {s : State} (h : s.phase ≠ .idle) (o : Result) : s.whenReady o = .refused .notReady :=
  if_neg h

/-- What a command word decodes to has the guard of `ready`. -/
theorem exec_command_of_busy {s : State} (hp : s.phase ≠ .idle) {c : CmdWord} {i : Instr}
    (hi : encode i = .command c) : exec i s = .refused .notReady := by
  cases i with
  | ldkey k => exact State.whenReady_of_busy hp _
  | ldblk b => exact State.whenReady_of_busy hp _
  | rdblk => exact State.whenReady_of_busy hp _
  | enc => exact State.whenReady_of_busy hp _
  | dec => exact State.whenReady_of_busy hp _
  | _ => cases hi

/-- Settles O26: a busy step does not look at the port, and every command has the guard of `ready`. -/
theorem commandsWaitWhileBusy : Obligations.CommandsWaitWhileBusy := fun _ hp =>
  ⟨fun h => step_withHost_of_busy h hp,
    fun c i hd => exec_command_of_busy hp (encodeDecodeEveryWord (.command c) i hd)⟩

/-! ### The commands in `IDLE` (R126 to R130) -/

section
variable {s : State}

theorem exec_ldkey_of_idle (hp : s.phase = .idle) (k : Key) : exec (.ldkey k) s = .next (s.loadKey k) :=
  State.whenReady_of_idle hp _

theorem exec_ldblk_of_idle (hp : s.phase = .idle) (b : Block) : exec (.ldblk b) s = .next (s.loadBlock b) :=
  State.whenReady_of_idle hp _

theorem exec_rdblk_of_loaded (hp : s.phase = .idle) (hb : s.bv = true) :
    exec .rdblk s = .next (s.emit s.w.toDout) :=
  (State.whenReady_of_idle hp _).trans (State.whenBlock_of_loaded hb _)

/-- Loading the key that is loaded changes nothing. -/
theorem State.loadKey_of_loaded (hk : s.kv = true) : s.loadKey s.key = s := by
  rw [State.loadKey, ← hk]

end

/-- Settles O21: `LDKEY` is the update `loadKey`, which overwrites what an earlier one wrote. -/
theorem ldkeyLoadsTheWholeKey : Obligations.LdkeyLoadsTheWholeKey := by
  refine ⟨fun k s hp => exec_ldkey_of_idle hp k, ?reload, ?overwrite, fun arg => ⟨_, decodeCommand_ldkey arg⟩,
    ldkeyArgumentLayout.2⟩
  case reload =>
    rintro _ s hp hk rfl
    rw [exec_ldkey_of_idle hp, State.loadKey_of_loaded hk]
  case overwrite =>
    intro k k' s t hp ht
    obtain rfl := Host.Outcome.next.inj ((exec_ldkey_of_idle hp k').symm.trans ht)
    rw [exec_ldkey_of_idle hp]
    exact exec_ldkey_of_idle (s := s.loadKey k') hp k

/-- Settles O22: `LDBLK` is the update `loadBlock`, which overwrites what an earlier one wrote and commutes with
`loadKey`. -/
theorem ldblkLoadsTheWholeBlock : Obligations.LdblkLoadsTheWholeBlock := by
  refine ⟨fun b s hp => exec_ldblk_of_idle hp b, ?eitherOrder, ?overwrite, fun d => ⟨_, decodeCommand_ldblk d⟩,
    tableWordsDecode.1⟩
  case eitherOrder =>
    intro b k s t u hp ht hu
    obtain rfl := Host.Outcome.next.inj ((exec_ldblk_of_idle hp b).symm.trans ht)
    obtain rfl := Host.Outcome.next.inj ((exec_ldkey_of_idle hp k).symm.trans hu)
    exact (exec_ldkey_of_idle (s := s.loadBlock b) hp k).trans (exec_ldblk_of_idle (s := s.loadKey k) hp b).symm
  case overwrite =>
    intro b b' s t hp ht
    obtain rfl := Host.Outcome.next.inj ((exec_ldblk_of_idle hp b').symm.trans ht)
    rw [exec_ldblk_of_idle hp]
    exact exec_ldblk_of_idle (s := s.loadBlock b') hp b

/-- Settles O23: `RDBLK` is the update `emit`, which leaves the block and its mark for the next one. -/
theorem rdblkEmitsTheBlock : Obligations.RdblkEmitsTheBlock := by
  refine fun s hp => ⟨fun hb => exec_rdblk_of_loaded hp hb, fun hb t ht => ?again, fun b t ht => ?afterLoad⟩
  case again =>
    obtain rfl := Host.Outcome.next.inj ((exec_rdblk_of_loaded hp hb).symm.trans ht)
    rw [exec_rdblk_of_loaded (s := s.emit s.w.toDout) hp hb]
    simp [State.emit]
  case afterLoad =>
    obtain rfl := Host.Outcome.next.inj ((exec_ldblk_of_idle hp b).symm.trans ht)
    exact exec_rdblk_of_loaded (s := s.loadBlock b) hp rfl

/-- Settles O24: `ENC` on a loaded state is the update `start`, after which `PHASE` is not `IDLE`. -/
theorem encStartsAtCounterOne : Obligations.EncStartsAtCounterOne := fun s hp hk hb =>
  ⟨s.start .enc 1, exec_enc_of_loaded hp hk hb, rfl, rfl⟩

/-- Settles O25: as O24, from the other end of the counter. -/
theorem decStartsAtCounterThirtyTwo : Obligations.DecStartsAtCounterThirtyTwo := fun s hp hk hb =>
  ⟨s.start .dec 32, exec_dec_of_loaded hp hk hb, rfl, rfl⟩

/-! ### A step runs what it decodes (R125) -/

/-- Settles O35: the step lemmas of a word at the port, of an internal call and of a round. -/
theorem stepRunsTheDecodedInstruction : Obligations.StepRunsTheDecodedInstruction := by
  refine fun s hr => ⟨fun c rest i hp hc hh hd => ?command, fun u i hp hc hd => ?call, s.exists_rsel_iff.mpr,
    fun r i hsel hd => ?round⟩
  case command =>
    have hcommand : decodeCommand c = .ok i := hd
    rw [step_command hr hp hc hh, hcommand]
  case call =>
    cases hd
    exact step_call hr hp hc
  case round =>
    cases hd
    exact step_busy hr hsel

/-! ### The software call (R134) -/

section
variable {s : State} {rest : List CmdWord}

theorem step_ldkeyCommand {c : CmdWord} {k : Key} (hr : s.released 1) (hp : s.phase = .idle) (hc : s.call = none)
    (hh : s.host = c :: rest) (hd : decodeCommand c = .ok (.ldkey k)) :
    step s = .next (({ s with rstLine := s.rstLine.tail, host := rest } : State).loadKey k) := by
  rw [step_command hr hp hc hh, hd]
  exact exec_ldkey_of_idle (s := { s with rstLine := s.rstLine.tail, host := rest }) hp k

/-- `LDKEY K`, `LDBLK b`, a transform, `RDBLK`: the output is the transform of `b` under `K`. -/
theorem runSteps_softwareCall {K : Key} {b : Block} {c1 c2 c3 c4 : CmdWord} {f : Key → Block → Block}
    (hr : s.released 36) (hp : s.phase = .idle) (hc : s.call = none) (hh : s.host = c1 :: c2 :: c3 :: c4 :: rest)
    (h1 : decodeCommand c1 = .ok (.ldkey K)) (h2 : decodeCommand c2 = .ok (.ldblk b)) (h3 : CommandRuns c3 f)
    (h4 : decodeCommand c4 = .ok .rdblk) :
    ∃ t, runSteps 36 s = .next t ∧ t.host = rest ∧ t.out = s.out ++ [(f K b).toDout] := by
  let s1 : State := ({ s with rstLine := s.rstLine.tail, host := c2 :: c3 :: c4 :: rest } : State).loadKey K
  let s2 : State := ({ s1 with rstLine := s1.rstLine.tail, host := c3 :: c4 :: rest } : State).loadBlock b
  let s3 : State := s2.afterTransform (c4 :: rest) (f K b)
  have hr1 : s1.released 35 := State.released_tail hr
  have hr2 : s2.released (33 + 1) := State.released_tail hr1
  have hr3 : s3.released 1 := State.released_drop hr2
  have hkey : runSteps 1 s = .next s1 :=
    (runSteps_one s).trans (step_ldkeyCommand (State.released_of_add (n := 35) hr) hp hc hh h1)
  have hblock : runSteps 1 s1 = .next s2 :=
    (runSteps_one s1).trans (step_ldblkCommand (State.released_of_add (n := 34) hr1) hp hc rfl h2)
  have htransform : runSteps 33 s2 = .next s3 := h3 s2 _ (State.released_of_add hr2) hp hc rfl rfl rfl
  have hread := (runSteps_one s3).trans (step_rdblkCommand hr3 rfl hc rfl rfl h4)
  exact ⟨_, runSteps_trans hkey (runSteps_trans hblock (runSteps_trans htransform hread)), rfl, rfl⟩

end

/-- Settles O42: the run of the four commands, with `ENC` and with `DEC` as its transform. -/
theorem commandSequenceIsTheSoftwareCall : Obligations.CommandSequenceIsTheSoftwareCall :=
  fun _ _ _ _ _ _ _ _ hr hp hc hh h1 h2 h4 =>
    ⟨fun h3 => runSteps_softwareCall hr hp hc hh h1 h2 (commandRuns_of_decode_enc h3) h4,
      fun h3 => runSteps_softwareCall hr hp hc hh h1 h2 (commandRuns_of_decode_dec h3) h4⟩

/-! ### The inputs of a step (R132) -/

/-- The model's three inputs, the port, the reset line and the internal call (log 2 to log 4), are the same. -/
structure State.SameInputs (s t : State) : Prop where
  host : t.host = s.host
  rstLine : t.rstLine = s.rstLine
  call : t.call = s.call

theorem exec_sameInputs {i : Instr} {s t : State} (h : exec i s = .next t) : s.SameInputs t := by
  obtain ⟨-, -, -, -, hhost, hline, hcall, -⟩ := eachRegisterHasItsWriters i s t h
  exact ⟨hhost, hline, hcall⟩

theorem State.advance_sameInputs (s : State) : s.SameInputs s.advance := by
  cases hp : s.phase with
  | idle => simp only [State.advance, hp]; exact ⟨rfl, rfl, rfl⟩
  | enc => rw [State.advance_of_enc hp]; exact ⟨rfl, rfl, rfl⟩
  | dec => rw [State.advance_of_dec hp]; exact ⟨rfl, rfl, rfl⟩

/-- Settles O45: a step consumes its inputs before it runs an instruction, and no instruction writes them. -/
theorem stepsNeverMakeUpInputs : Obligations.StepsNeverMakeUpInputs := by
  intro s t h
  obtain ⟨rest, hl⟩ | ⟨hr, ⟨r, hsel⟩ | ⟨hp, ⟨u, hu⟩ | ⟨hc, ⟨c, rest, hh⟩ | hh⟩⟩⟩ := s.situations
  · rw [step_reset hl] at h
    obtain rfl := Host.Outcome.next.inj h
    exact ⟨fun _ => rfl, .inl rfl, by rw [hl]; rfl⟩
  · rw [step_busy hr hsel] at h
    obtain ⟨v, hv, rfl⟩ := mapNext_eq_next h
    obtain ⟨hhost, hline, hcall⟩ := exec_sameInputs hv
    obtain ⟨hhost', hline', hcall'⟩ := v.advance_sameInputs
    exact ⟨fun hnone => hcall'.trans (hcall.trans hnone), .inl (hhost'.trans hhost), hline'.trans hline⟩
  · rw [step_call hr hp hu] at h
    obtain ⟨hhost, hline, hcall⟩ := exec_sameInputs h
    exact ⟨fun _ => hcall, .inl hhost, hline⟩
  · rw [step_command hr hp hc hh] at h
    cases hd : decodeCommand c with
    | ok i =>
      rw [hd] at h
      obtain ⟨hhost, hline, hcall⟩ := exec_sameInputs h
      exact ⟨fun _ => hcall.trans hc, .inr ⟨c, hh.trans (congrArg _ hhost.symm)⟩, hline⟩
    | error e => rw [hd] at h; cases h
  · rw [step_idle hr hp hc hh] at h
    obtain rfl := Host.Outcome.next.inj h
    exact ⟨id, .inl rfl, rfl⟩

end Sys2Proof.Machine
end

section
/-! PROOFS of the family 60_exceptions: reset before everything, which word at the port has a step, and the runs that are
never refused (spec/60_exceptions.md). -/

namespace Sys2Proof.Machine

/-! ### Reset (R144) -/

/-- Settles O19: the step lemma of an asserted reset line. -/
theorem resetOverridesEverything : Obligations.ResetOverridesEverything := fun _ _ hl => step_reset hl

/-! ### The word at the port (R142) -/

/-- The word `c` at the port is none of the three situations of R142: it is no reserved encoding, and the marks of what
it reads are set. -/
def State.Accepts (s : State) (c : CmdWord) : Prop :=
  ¬ reservedCommand c ∧ (c.op = 0x04 ∨ c.op = 0x05 → s.kv = true ∧ s.bv = true) ∧ (c.op = 0x03 → s.bv = true)

/-- The three situations of R142, in its words. -/
theorem State.not_accepts_iff {s : State} {c : CmdWord} :
    ¬ s.Accepts c ↔ reservedCommand c ∨ ((c.op = 0x04 ∨ c.op = 0x05) ∧ (s.kv = false ∨ s.bv = false))
      ∨ (c.op = 0x03 ∧ s.bv = false) := by
  simp only [State.Accepts, not_and_or, not_not, Classical.not_imp, Bool.not_eq_true]

/-- There is no fault, so an outcome is a refusal or a next state (R140). -/
theorem exists_refused_iff {o : Result} : (∃ r, o = .refused r) ↔ ¬ ∃ t, o = .next t := by
  refine ⟨?_, fun h => exists_refused_of_ne_next fun t ht => h ⟨t, ht⟩⟩
  rintro ⟨r, rfl⟩ ⟨t, ht⟩
  cases ht

section
variable {s : State} {c : CmdWord} {i : Instr}

/-- The guards of `ENC` and `DEC` let nothing through while a mark is clear. -/
theorem marks_of_transform {o : Result} {t : State} (h : s.whenReady (s.whenKey (s.whenBlock o)) = .next t) :
    s.kv = true ∧ s.bv = true := by
  obtain ⟨-, h⟩ := State.whenReady_eq_next h
  obtain ⟨hk, h⟩ := State.whenKey_eq_next h
  exact ⟨hk, (State.whenBlock_eq_next h).1⟩

/-- A command that answers a next state was accepted: its guards ask for the marks of what it reads. -/
theorem accepts_of_exec_command (hi : encode i = .command c) {t : State} (h : exec i s = .next t) : s.Accepts c := by
  have hdefined : ¬ reservedCommand c := c.wellFormed_iff.mp (hi ▸ encode_wellFormed i :)
  refine ⟨hdefined, ?_⟩
  cases i with
  | ldkey k => cases hi; simp
  | ldblk b => cases hi; simp
  | rdblk =>
    cases hi
    obtain ⟨hb, -⟩ := State.whenBlock_eq_next (State.whenReady_eq_next h).2
    simp [hb]
  | enc => cases hi; simp [marks_of_transform h]
  | dec => cases hi; simp [marks_of_transform h]
  | _ => cases hi

/-- An accepted command answers a next state, and sets the mark of what it loads. -/
theorem exec_command_of_accepts (hi : encode i = .command c) (hp : s.phase = .idle) (h : s.Accepts c) :
    ∃ t, exec i s = .next t ∧ t.kv = (s.kv || c.op == 0x01) ∧ t.bv = (s.bv || c.op == 0x02) := by
  obtain ⟨-, htransform, hread⟩ := h
  cases i with
  | ldkey k => cases hi; exact ⟨_, exec_ldkey_of_idle hp k, by simp⟩
  | ldblk b => cases hi; exact ⟨_, exec_ldblk_of_idle hp b, by simp⟩
  | rdblk => cases hi; exact ⟨_, exec_rdblk_of_loaded hp (hread rfl), by simp⟩
  | enc =>
    cases hi
    obtain ⟨hk, hb⟩ := htransform (.inl rfl)
    exact ⟨_, exec_enc_of_loaded hp hk hb, by simp⟩
  | dec =>
    cases hi
    obtain ⟨hk, hb⟩ := htransform (.inr rfl)
    exact ⟨_, exec_dec_of_loaded hp hk hb, by simp⟩
  | _ => cases hi

end

section
variable {s : State}

/-- The step of a word at the port that is accepted. -/
theorem step_of_accepts (hr : s.released 1) (hp : s.phase = .idle) (hcall : s.call = none) {c : CmdWord}
    {rest : List CmdWord} (hh : s.host = c :: rest) (h : s.Accepts c) :
    ∃ t, step s = .next t ∧ t.host = rest ∧ t.kv = (s.kv || c.op == 0x01) ∧ t.bv = (s.bv || c.op == 0x02) := by
  obtain ⟨i, hd, hi⟩ := decodeCommand_of_not_reserved h.1
  obtain ⟨t, ht, hmarks⟩ :=
    exec_command_of_accepts (s := { s with rstLine := s.rstLine.tail, host := rest }) hi hp h
  refine ⟨t, ?_, (exec_sameInputs ht).host, hmarks⟩
  rw [step_command hr hp hcall hh, hd]
  exact ht

/-- A word at the port that has a step is accepted. -/
theorem accepts_of_step (hr : s.released 1) (hp : s.phase = .idle) (hcall : s.call = none) {c : CmdWord}
    {rest : List CmdWord} (hh : s.host = c :: rest) {t : State} (h : step s = .next t) : s.Accepts c := by
  rw [step_command hr hp hcall hh] at h
  cases hd : decodeCommand c with
  | error e => rw [hd] at h; cases h
  | ok i =>
    rw [hd] at h
    exact accepts_of_exec_command (s := { s with rstLine := s.rstLine.tail, host := rest })
      (encodeDecodeEveryWord (.command c) i hd) h

/-- A legal state has a step unless it is `IDLE` with a word at the port that is not accepted. -/
theorem exists_step_iff (hs : s.Inv) (hcall : s.call = none) (hr : s.released 1) :
    (∃ t, step s = .next t) ↔ (s.phase = .idle → ∀ c rest, s.host = c :: rest → s.Accepts c) := by
  refine ⟨fun ⟨t, ht⟩ hp c rest hh => accepts_of_step hr hp hcall hh ht, fun h => ?_⟩
  by_cases hp : s.phase = .idle
  · cases hh : s.host with
    | nil => exact ⟨_, step_idle hr hp hcall hh⟩
    | cons c rest =>
      obtain ⟨t, ht, -⟩ := step_of_accepts hr hp hcall hh (h hp c rest hh)
      exact ⟨t, ht⟩
  · obtain ⟨t, ht, -⟩ := step_round hs hr hp
    exact ⟨t, ht⟩

end

/-- Settles O48: a step is refused exactly when it has no next state, that is when the word at the port is not
accepted; and the type of faults is empty. -/
theorem onlyTheThreeRefusals : Obligations.OnlyTheThreeRefusals := by
  refine fun s hs hcall hr => ⟨?_, fun f => nomatch f⟩
  rw [exists_refused_iff, exists_step_iff hs hcall hr]
  push Not
  exact and_congr_right fun _ => exists₂_congr fun _ _ => and_congr_right fun _ => State.not_accepts_iff

/-! ### Runs under the launch premises (R152) -/

/-- The launch premises of a list: its first word is accepted, and they hold of the rest with the marks it leaves. -/
theorem launchOk_cons_iff {s : State} {c : CmdWord} {rest : List CmdWord} :
    launchOk s.kv s.bv (c :: rest) = true
      ↔ s.Accepts c ∧ launchOk (s.kv || c.op == 0x01) (s.bv || c.op == 0x02) rest = true := by
  simp only [launchOk, State.Accepts, CmdWord.op, Bool.and_eq_true]
  refine and_congr_left' (and_congr c.wellFormed_iff ?_)
  by_cases hread : c.extractLsb' 80 8 = 0x03
  · simp [hread]
  by_cases htransform : c.extractLsb' 80 8 = 0x04 ∨ c.extractLsb' 80 8 = 0x05
  · simp only [hread, htransform, if_true, if_false, Bool.and_eq_true, forall_const, false_imp_iff, and_true]
  · simp only [hread, htransform, if_false, false_imp_iff, and_true]

/-- Under the launch premises there is a step, and it keeps them. -/
theorem step_keeps_launchOk {s : State} (hs : s.Inv) (hcall : s.call = none) (hr : s.released 1)
    (hl : launchOk s.kv s.bv s.host = true) :
    ∃ t, step s = .next t ∧ launchOk t.kv t.bv t.host = true := by
  by_cases hp : s.phase = .idle
  · cases hh : s.host with
    | nil => exact ⟨_, step_idle hr hp hcall hh, hl⟩
    | cons c rest =>
      obtain ⟨haccepts, hrest⟩ := launchOk_cons_iff.mp (hh ▸ hl)
      obtain ⟨t, ht, hhost, hkv, hbv⟩ := step_of_accepts hr hp hcall hh haccepts
      exact ⟨t, ht, by rwa [hhost, hkv, hbv]⟩
  · obtain ⟨t, ht, hagree, -⟩ := step_round hs hr hp
    exact ⟨t, ht, by rwa [hagree.kv, hagree.bv, hagree.host]⟩

/-- Settles O49, by induction on the steps: the first keeps the invariant, the inputs and the launch premises. -/
theorem launchPremisesSuffice : Obligations.LaunchPremisesSuffice := by
  intro n
  induction n with
  | zero => exact fun s _ _ _ _ => ⟨s, rfl⟩
  | succ n ih =>
    intro s hs hcall hr hl
    have hr1 : s.released 1 := State.released_of_add (n := n) (Nat.add_comm n 1 ▸ hr)
    obtain ⟨u, hu, hlu⟩ := step_keeps_launchOk hs hcall hr1 hl
    obtain ⟨hcallu, -, hline⟩ := stepsNeverMakeUpInputs s u hu
    have hru : u.released n := by
      rw [State.released, hline]
      exact State.released_tail hr
    obtain ⟨t, ht⟩ := ih u (invariantKeptByEveryStep s u hs hu) (hcallu hcall) hru hlu
    exact ⟨t, by simp only [runSteps, hu, ht]⟩

end Sys2Proof.Machine
end

section
/-! PROOFS of the family 70_reset_and_hazards: what survives while nothing happens (spec/70_reset_and_hazards.md). -/

namespace Sys2Proof.Machine

/-- Settles O36, by induction on the steps: the state after `n` of them is idle again, and one more idle step moves
only the reset line. -/
theorem idleStepsKeepEverything : Obligations.IdleStepsKeepEverything := by
  intro n s hr hp hc hh
  induction n with
  | zero => rfl
  | succ n ih =>
    calc runSteps (n + 1) s
      _ = step { s with rstLine := s.rstLine.drop n } := runSteps_succ (ih (State.released_of_add hr))
      _ = .next { s with rstLine := (s.rstLine.drop n).tail } := step_idle (State.released_drop hr) hp hc hh
      _ = .next { s with rstLine := s.rstLine.drop (n + 1) } := by rw [List.tail_drop]

end Sys2Proof.Machine
end
